-- ==== Sys2Proof/Word.lean ====
section
/-! DEFINITION. The two word types of the hardware (00_scope.md R9): a byte is 0 to 255, a word 0 to 2^32 - 1,
both unsigned; bit 0 is the least significant (R10). -/

namespace Sys2Proof

/-- 00_scope.md R9: "A byte is an unsigned integer 0 to 255." -/
abbrev Byte := BitVec 8

/-- 00_scope.md R9: "A word is an unsigned integer 0 to 2^32 - 1." -/
abbrev Word := BitVec 32

end Sys2Proof
end

