-- ==== Sys2Proof/Syntax.lean ====
section
/-! DEFINITION. The command set: one constructor per row of spec/opcode_table.json (30_encoding.md R92). -/

namespace Sys2Proof

/-- The five commands. They have no operand fields: "the operands of a command are always the buffers and length
registers" (30_encoding.md R90). A word that is none of these five is reserved (R93) and is no constructor here: it
is a rejection of the decoder, which the engine completes with `InvalidCommand` (60_exceptions.md R242). -/
inductive Instr where
  /-- `XOR`, 40_otp_xor.md R111. -/
  | xor
  /-- `XOR.V`, 40_otp_xor.md R112. -/
  | xorV
  /-- `CBCDEC`, 41_aes_cbc_decrypt.md R130. -/
  | cbcdec
  /-- `CBCDEC.V`, 41_aes_cbc_decrypt.md R137. -/
  | cbcdecV
  /-- `CLEAR`, 44_control_ops.md R222. -/
  | clear
deriving DecidableEq, Repr

end Sys2Proof
end

