-- ==== Sys2Proof/WellFormed.lean ====
section
/-! DEFINITION. The fields of format C (30_encoding.md R90) and which combinations of them are defined commands
(R93). `Instr` has no operands, so every term of it is well formed; the checks are on the fields of a word. -/

namespace Sys2Proof

/-- Format C, the one format of a command word (30_encoding.md R90, R91). -/
structure Fields where
  /-- bits 7:0, the operation -/
  op  : BitVec 8
  /-- bit 8, verify -/
  v   : Bool
  /-- bits 31:9, reserved, must be 0 -/
  rsv : BitVec 23
deriving DecidableEq, Repr

/-- Why a word is reserved: the three cases of 30_encoding.md R93. -/
inductive Reserved where
  /-- "any word with `RSV != 0`" -/
  | reservedBits
  /-- "any word with `OP` outside {0x01, 0x02, 0x03}" -/
  | unknownOp
  /-- "the word `0x00000103` (`CLEAR` with `V == 1`)" -/
  | clearWithVerify
deriving DecidableEq, Repr

/-- The check on the fields of a command word: the first of the cases of 30_encoding.md R93 it falls under, if any. -/
def Fields.check (f : Fields) : Option Reserved :=
  if f.rsv ≠ 0 then some .reservedBits
  else if f.op = 1 then none
  else if f.op = 2 then none
  else if f.op = 3 then (if f.v then some .clearWithVerify else none)
  else some .unknownOp

/-- The fields of a defined command word. -/
def Fields.wf (f : Fields) : Bool := f.check.isNone

end Sys2Proof
end

