-- ==== Sys2Proof/Decode.lean ====
section
/-! DEFINITION. Command words to commands and back (30_encoding.md R90 to R94). A command is one 32-bit register
word; registers are values and no rule addresses a byte of one (20_memory.md R66), so the decoder reads a word. -/

namespace Sys2Proof

/-- The fields of a word: `OP = w[7:0]`, `V = w[8]`, `RSV = w[31:9]` (30_encoding.md R91). -/
def Fields.ofWord (w : Word) : Fields where
  op  := w.extractLsb' 0 8
  v   := w.getLsbD 8
  rsv := w.extractLsb' 9 23

/-- The word that has these fields (30_encoding.md R90). -/
def Fields.word (f : Fields) : Word :=
  f.op.setWidth 32 ||| ((BitVec.ofBool f.v).setWidth 32 <<< 8) ||| (f.rsv.setWidth 32 <<< 9)

/-- `Decode` of 30_encoding.md R94, with the reason of R93 where the word is reserved. -/
def decode (w : Word) : Except Reserved Instr :=
  let f := Fields.ofWord w
  match f.check with
  | some why => .error why
  | none =>
    if f.op = 1 then .ok (if f.v then .xorV else .xor)
    else if f.op = 2 then .ok (if f.v then .cbcdecV else .cbcdec)
    else .ok .clear

/-- The fields of each command: the columns OP and V of 30_encoding.md R92. -/
def Instr.fields : Instr → Fields
  | .xor     => ⟨0x01, false, 0⟩
  | .xorV    => ⟨0x01, true, 0⟩
  | .cbcdec  => ⟨0x02, false, 0⟩
  | .cbcdecV => ⟨0x02, true, 0⟩
  | .clear   => ⟨0x03, false, 0⟩

/-- The command word of a command. -/
def encode (i : Instr) : Word := i.fields.word

/-- Bit `V` of a command (30_encoding.md R90, R91): whether it asks for verification. -/
def Instr.verifies (i : Instr) : Bool := i.fields.v

/-- What the decoder reads from a command word whose lowest `nbits` bits are those of `w` and whose other bits are 0. -/
def decodeTableWord (nbits w : Nat) : Option Instr :=
  match decode (BitVec.ofNat 32 (w % 2 ^ nbits)) with
  | .ok i    => some i
  | .error _ => none

end Sys2Proof
end

