-- ==== Sys2Proof/Config.lean ====
section
/-! DEFINITION. The constants of 00_scope.md R7, and what an implementation fixes (R8). Of the four open parameters of
R8 only `CAP` can be observed; it is held in the state (`State.cap`), so that every statement is about every value of
it, and here stands only the value `State.reset` gives it. `LANES` is an argument of `xorByLanes`, `LATENCY` is the place of
the engine's step in the schedule, `MAP` is outside the model (notes/assumptions/5.md, 8.md). -/

namespace Sys2Proof

/-- Block size in bytes (00_scope.md R7). -/
def Config.blockBytes : Nat := 16

/-- AES key length in bytes (00_scope.md R7). -/
def Config.keyBytes : Nat := 16

/-- Initialization vector length in bytes (00_scope.md R7). -/
def Config.ivBytes : Nat := 16

/-- Number of AES rounds, `NR` (00_scope.md R7). -/
def Config.rounds : Nat := 10

/-- Smallest value of the parameter `CAP` (00_scope.md R8: `16 <= CAP <= 2^32 - 1`; the upper bound is a word's). -/
def Config.minCap : Word := 16

/-- DESIGN CHOICE: the `CAP` of `State.reset`. The spec leaves `CAP` open (00_scope.md R8); 128 is the value its test
vectors were computed with (95_test_vectors.md, Conventions). See notes/assumptions/5.md. -/
def Config.resetCap : Word := 128

end Sys2Proof
end

