-- ==== Sys2Proof/Machine/Aes.lean ====
section
/-! DEFINITION. AES-128 key expansion and inverse cipher, `BlockDecrypt` (42_aes128_inverse_cipher.md R160 to R172).
A column of the cipher state, and a word of the key expansion, are four bytes; a block is four columns, so that block
byte `j` sits in row `j mod 4`, column `j div 4` (R160). -/

namespace Sys2Proof.Machine

/-- One column of the state, or one key-expansion word: rows 0 to 3. -/
structure Column where
  b0 : Byte
  b1 : Byte
  b2 : Byte
  b3 : Byte
deriving DecidableEq, Repr

/-- A 16-byte block, cipher state or round key: columns 0 to 3 (42_aes128_inverse_cipher.md R160). -/
structure Block where
  c0 : Column
  c1 : Column
  c2 : Column
  c3 : Column
deriving DecidableEq, Repr

/-- Bytes `i` to `i + 3` of a sequence as a column. -/
def columnAt (l : List Byte) (i : Nat) : Column :=
  ⟨l.getD i 0, l.getD (i + 1) 0, l.getD (i + 2) 0, l.getD (i + 3) 0⟩

/-- The first 16 bytes of a sequence as a block: "`b[4*c .. 4*c+4)` is column `c`" (42_aes128_inverse_cipher.md R160). -/
def blockOf (l : List Byte) : Block :=
  ⟨columnAt l 0, columnAt l 4, columnAt l 8, columnAt l 12⟩

/-- The four bytes of a column. -/
def Column.bytes (c : Column) : List Byte := [c.b0, c.b1, c.b2, c.b3]

/-- The 16 bytes of a block, read out column by column (42_aes128_inverse_cipher.md R160). -/
def Block.bytes (b : Block) : List Byte := b.c0.bytes ++ b.c1.bytes ++ b.c2.bytes ++ b.c3.bytes

/-- Byte-by-byte exclusive-or of two columns. -/
def Column.xor (x y : Column) : Column :=
  ⟨x.b0 ^^^ y.b0, x.b1 ^^^ y.b1, x.b2 ^^^ y.b2, x.b3 ^^^ y.b3⟩

/-- Byte-by-byte exclusive-or of two blocks. -/
def Block.xor (x y : Block) : Block :=
  ⟨x.c0.xor y.c0, x.c1.xor y.c1, x.c2.xor y.c2, x.c3.xor y.c3⟩

/-- One function on every byte of a column. -/
def Column.map (f : Byte → Byte) (c : Column) : Column := ⟨f c.b0, f c.b1, f c.b2, f c.b3⟩

/-- One function on every column of a block. -/
def Block.mapColumns (f : Column → Column) (b : Block) : Block := ⟨f b.c0, f b.c1, f b.c2, f b.c3⟩

/-- Column `c` of a block. -/
def Block.column (b : Block) (c : Nat) : Column :=
  if c = 0 then b.c0 else if c = 1 then b.c1 else if c = 2 then b.c2 else b.c3

/-! ## Arithmetic in GF(2^8) -/

/-- `xtime(a)`, multiplication by 0x02 (42_aes128_inverse_cipher.md R161). -/
def xtime (a : Byte) : Byte := (a <<< 1) ^^^ (if a.getLsbD 7 then 0x1B else 0x00)

/-- `xtime^i(a)`, `xtime` applied `i` times. -/
def xtimes : Nat → Byte → Byte
  | 0, a => a
  | i + 1, a => xtime (xtimes i a)

/-- `gmul(a, b)` (42_aes128_inverse_cipher.md R162): the exclusive-or of `xtime^i(a)` over the bits `i` of `b` that are 1. -/
def gmul (a b : Byte) : Byte :=
  (List.range 8).foldl (fun acc i => if b.getLsbD i then acc ^^^ xtimes i a else acc) 0

/-! ## Key expansion -/

/-- RotWord: rotate left by one byte (42_aes128_inverse_cipher.md R166). -/
def rotWord (t : Column) : Column := ⟨t.b1, t.b2, t.b3, t.b0⟩

/-- SubWord: `SBOX` on each byte (42_aes128_inverse_cipher.md R166). -/
def subWord (t : Column) : Column := t.map sbox

/-- One round of the key expansion (42_aes128_inverse_cipher.md R166, the words `w[4r] .. w[4r+3]` from the four before
them): the first is the one four back with RotWord, SubWord and the round constant of its predecessor, each of the
others the one four back with its predecessor. -/
def nextRoundKey (rc : Byte) (k : Block) : Block :=
  let w0 := k.c0.xor ((subWord (rotWord k.c3)).xor ⟨rc, 0, 0, 0⟩)
  let w1 := k.c1.xor w0
  let w2 := k.c2.xor w1
  let w3 := k.c3.xor w2
  ⟨w0, w1, w2, w3⟩

/-- The round key `k` and the ones after it, one for each round constant. -/
def roundKeysFrom (k : Block) : List Byte → List Block
  | [] => [k]
  | rc :: rcs => k :: roundKeysFrom (nextRoundKey rc k) rcs

/-- `KeyExpansion(key)`: the 11 round keys `rk[0 .. 10]` (42_aes128_inverse_cipher.md R166). -/
def keyExpansion (key : Block) : List Block := roundKeysFrom key rconTable

/-- `rk[r]` of a list of round keys. -/
def roundKey (rk : List Block) (r : Nat) : Block := rk.getD r (blockOf [])

/-- The key-expansion word `w[i]`: column `i mod 4` of round key `i div 4` (42_aes128_inverse_cipher.md R160). -/
def keyWord (key : Block) (i : Nat) : Column := (roundKey (keyExpansion key) (i / 4)).column (i % 4)

/-! ## The four transformations of the inverse cipher -/

/-- `AddRoundKey(b, k)` (42_aes128_inverse_cipher.md R167). -/
def addRoundKey (b k : Block) : Block := b.xor k

/-- `InvShiftRows(b)` (42_aes128_inverse_cipher.md R168): `s'[r][c] = s[r][(c - r) mod 4]`. -/
def invShiftRows (b : Block) : Block :=
  ⟨⟨b.c0.b0, b.c3.b1, b.c2.b2, b.c1.b3⟩,
   ⟨b.c1.b0, b.c0.b1, b.c3.b2, b.c2.b3⟩,
   ⟨b.c2.b0, b.c1.b1, b.c0.b2, b.c3.b3⟩,
   ⟨b.c3.b0, b.c2.b1, b.c1.b2, b.c0.b3⟩⟩

/-- `InvSubBytes(b)` (42_aes128_inverse_cipher.md R169). -/
def invSubBytes (b : Block) : Block := b.mapColumns (Column.map invSbox)

/-- `InvMixColumns` on one column (42_aes128_inverse_cipher.md R170). -/
def invMixColumn (s : Column) : Column :=
  ⟨gmul 0x0E s.b0 ^^^ gmul 0x0B s.b1 ^^^ gmul 0x0D s.b2 ^^^ gmul 0x09 s.b3,
   gmul 0x09 s.b0 ^^^ gmul 0x0E s.b1 ^^^ gmul 0x0B s.b2 ^^^ gmul 0x0D s.b3,
   gmul 0x0D s.b0 ^^^ gmul 0x09 s.b1 ^^^ gmul 0x0E s.b2 ^^^ gmul 0x0B s.b3,
   gmul 0x0B s.b0 ^^^ gmul 0x0D s.b1 ^^^ gmul 0x09 s.b2 ^^^ gmul 0x0E s.b3⟩

/-- `InvMixColumns(b)` (42_aes128_inverse_cipher.md R170). -/
def invMixColumns (b : Block) : Block := b.mapColumns invMixColumn

/-! ## The inverse cipher -/

/-- One of the nine full rounds of `BlockDecrypt` (42_aes128_inverse_cipher.md R171). -/
def decryptRound (st k : Block) : Block :=
  invMixColumns (addRoundKey (invSubBytes (invShiftRows st)) k)

/-- `BlockDecrypt` with the round keys given (42_aes128_inverse_cipher.md R171): `AddRoundKey` with `rk[10]`, nine full
rounds with `rk[9]` to `rk[1]`, and a tenth without `InvMixColumns` with `rk[0]`. -/
def decryptWith (rk : List Block) (c : Block) : Block :=
  let st := [9, 8, 7, 6, 5, 4, 3, 2, 1].foldl (fun st r => decryptRound st (roundKey rk r))
    (addRoundKey c (roundKey rk Config.rounds))
  addRoundKey (invSubBytes (invShiftRows st)) (roundKey rk 0)

/-- `BlockDecrypt(c, key)` (42_aes128_inverse_cipher.md R171). -/
def blockDecrypt (c key : Block) : Block := decryptWith (keyExpansion key) c

end Sys2Proof.Machine
end

