-- ==== Sys2Proof/Machine/Reference.lean ====
section
/-! DEFINITION. Reference functions, "not hardware": the forward cipher and the CBC encryptor through which the spec
states the round trip and the tamper law (42_aes128_inverse_cipher.md R175, R176; 41_aes_cbc_decrypt.md R139). No step
of the machine uses them. -/

namespace Sys2Proof.Machine

/-- SubBytes: `st'[j] = SBOX[st[j]]` (42_aes128_inverse_cipher.md R175). -/
def subBytes (b : Block) : Block := b.mapColumns (Column.map sbox)

/-- ShiftRows: `s'[r][c] = s[r][(c + r) mod 4]` (42_aes128_inverse_cipher.md R175). -/
def shiftRows (b : Block) : Block :=
  ⟨⟨b.c0.b0, b.c1.b1, b.c2.b2, b.c3.b3⟩,
   ⟨b.c1.b0, b.c2.b1, b.c3.b2, b.c0.b3⟩,
   ⟨b.c2.b0, b.c3.b1, b.c0.b2, b.c1.b3⟩,
   ⟨b.c3.b0, b.c0.b1, b.c1.b2, b.c2.b3⟩⟩

/-- MixColumns on one column (42_aes128_inverse_cipher.md R175). -/
def mixColumn (s : Column) : Column :=
  ⟨gmul 2 s.b0 ^^^ gmul 3 s.b1 ^^^ s.b2 ^^^ s.b3,
   s.b0 ^^^ gmul 2 s.b1 ^^^ gmul 3 s.b2 ^^^ s.b3,
   s.b0 ^^^ s.b1 ^^^ gmul 2 s.b2 ^^^ gmul 3 s.b3,
   gmul 3 s.b0 ^^^ s.b1 ^^^ s.b2 ^^^ gmul 2 s.b3⟩

/-- MixColumns (42_aes128_inverse_cipher.md R175). -/
def mixColumns (b : Block) : Block := b.mapColumns mixColumn

/-- One of the nine full rounds of `BlockEncrypt` (42_aes128_inverse_cipher.md R175). -/
def encryptRound (st k : Block) : Block := addRoundKey (mixColumns (shiftRows (subBytes st))) k

/-- `BlockEncrypt` with the round keys given (42_aes128_inverse_cipher.md R175). -/
def encryptWith (rk : List Block) (p : Block) : Block :=
  let st := [1, 2, 3, 4, 5, 6, 7, 8, 9].foldl (fun st r => encryptRound st (roundKey rk r))
    (addRoundKey p (roundKey rk 0))
  addRoundKey (shiftRows (subBytes st)) (roundKey rk Config.rounds)

/-- `BlockEncrypt(p, key)` (42_aes128_inverse_cipher.md R175). -/
def blockEncrypt (p key : Block) : Block := encryptWith (keyExpansion key) p

/-- One of the nine full rounds of the "equivalent inverse cipher" (42_aes128_inverse_cipher.md R172): `InvSubBytes` and
`InvShiftRows` reordered, `InvMixColumns` before the addition of a round key that `InvMixColumns` was applied to. -/
def equivalentRound (st k : Block) : Block :=
  addRoundKey (invMixColumns (invShiftRows (invSubBytes st))) (invMixColumns k)

/-- The "equivalent inverse cipher" form of `BlockDecrypt` (42_aes128_inverse_cipher.md R172). -/
def equivalentDecrypt (c key : Block) : Block :=
  let rk := keyExpansion key
  let st := [9, 8, 7, 6, 5, 4, 3, 2, 1].foldl (fun st r => equivalentRound st (roundKey rk r))
    (addRoundKey c (roundKey rk Config.rounds))
  addRoundKey (invShiftRows (invSubBytes st)) (roundKey rk 0)

/-- `Pad(m) = m ++ rep(p, p)` with `p = 16 - (len(m) mod 16)` (41_aes_cbc_decrypt.md R139). -/
def pad (m : List Byte) : List Byte :=
  let p := Config.blockBytes - m.length % Config.blockBytes
  m ++ List.replicate p (BitVec.ofNat 8 p)

/-- The chain of `CbcEncrypt` (42_aes128_inverse_cipher.md R176): `C(k) = BlockEncrypt(x(k) ^ C(k-1), key)`, from the
chaining block `prev` on, with the round keys given. -/
def cbcEncryptChain (rk : List Block) (prev : Block) : List Block → List Block
  | [] => []
  | x :: xs =>
    let c := encryptWith rk (x.xor prev)
    c :: cbcEncryptChain rk c xs

end Sys2Proof.Machine
end

