-- ==== Sys2Proof/Machine/State.lean ====
section
/-! DEFINITION. The state of one core (10_state.md R20, R22, R40), the agents' steps (R52), and the reset state
(70_reset_and_hazards.md R280). All plain data. -/

namespace Sys2Proof.Machine

/-- Field `PHASE` of STATUS (10_state.md R24, R25). Value 3 never occurs. -/
inductive Phase where
  | idle
  | busy
  | done
deriving DecidableEq, Repr

/-- Field `VRES` of STATUS, the verification result (10_state.md R24, R26). -/
inductive Vres where
  | none
  | pass
  | fail
  | error
deriving DecidableEq, Repr

/-- Field `ERR` of STATUS, the error kind (10_state.md R24, 60_exceptions.md R241). Codes 7 to 15 are never written. -/
inductive Err where
  | none
  | insufficientKeyMaterial
  | invalidCipherInput
  | invalidPadding
  | mismatch
  | invalidCommand
  | capacityExceeded
deriving DecidableEq, Repr

/-- Register `MISMATCH_INFO` (10_state.md R33): a byte is there exactly when its valid bit is 1, and its field reads 0
when it is not. The 32-bit word the host reads is `MismatchInfo.word`. -/
structure MismatchInfo where
  /-- `EXPECTED`, present when `EXP_VALID` is 1 -/
  expected : Option Byte
  /-- `ACTUAL`, present when `ACT_VALID` is 1 -/
  actual   : Option Byte
deriving DecidableEq, Repr

/-- The five buffer spaces (10_state.md R40). -/
inductive Space where
  | inp
  | km
  | iv
  | ref
  | out
deriving DecidableEq, Repr

/-- The assigned registers, by name (10_state.md R22). -/
inductive RegName where
  | cmd
  | status
  | inLen
  | kmLen
  | ivLen
  | refLen
  | outLen
  | mismatchAt
  | mismatchInfo
  | lastCmd
  | cap
deriving DecidableEq, Repr

/-- The steps of the three agents (10_state.md R52): four of the host, one of the engine, one of the environment. -/
inductive AgentStep where
  /-- `HostWriteReg(n, w)`, 44_control_ops.md R218 -/
  | hostWriteReg (n w : Word)
  /-- `HostReadReg(n)`, 44_control_ops.md R219 -/
  | hostReadReg (n : Word)
  /-- `HostWriteBuf(S, i, b)`, 20_memory.md R62 -/
  | hostWriteBuf (sp : Space) (i : Nat) (b : Byte)
  /-- `HostReadBuf(S, i)`, 20_memory.md R63 -/
  | hostReadBuf (sp : Space) (i : Nat)
  /-- `EngineComplete`, 44_control_ops.md R221 -/
  | engineComplete
  /-- `Reset`, 70_reset_and_hazards.md R280 -/
  | reset
deriving DecidableEq, Repr

/-- What one read returned to the host: the place read and the value (30_encoding.md R95, the value after `->`). -/
inductive Reply where
  | reg (n value : Word)
  | byte (sp : Space) (i : Nat) (value : Byte)
deriving DecidableEq, Repr

/-- One buffer space: its bytes that are not 0x00, at rising indices. A byte not listed is 0x00, which is what every
byte of every buffer is after reset (70_reset_and_hazards.md R280). -/
abbrev Memory := List Host.Cell

/-- The canonical form: indices strictly rising, and no entry equal to what an unlisted byte reads as. -/
abbrev Memory.wf (m : Memory) : Prop :=
  m.Pairwise (fun c d => c.1 < d.1) ∧ ∀ c ∈ m, c.2 ≠ 0

/-- The complete architectural state of one core (10_state.md R20), its parameter `CAP`, and the model's own two
fields at the end. -/
structure State where
  /-- `PHASE`, 10_state.md R25 -/
  phase        : Phase
  /-- `VRES`, 10_state.md R26 -/
  vres         : Vres
  /-- `ERR`, 60_exceptions.md R241 -/
  err          : Err
  /-- `IN_LEN`, 10_state.md R27 -/
  inLen        : Word
  /-- `KM_LEN`, 10_state.md R28 -/
  kmLen        : Word
  /-- `IV_LEN`, 10_state.md R29 -/
  ivLen        : Word
  /-- `REF_LEN`, 10_state.md R30 -/
  refLen       : Word
  /-- `OUT_LEN`, 10_state.md R31 -/
  outLen       : Word
  /-- `MISMATCH_AT`, 10_state.md R32 -/
  mismatchAt   : Word
  /-- `MISMATCH_INFO`, 10_state.md R33 -/
  mismatchInfo : MismatchInfo
  /-- `LASTCMD`, 10_state.md R35 -/
  lastCmd      : Word
  /-- buffer `IN`, 10_state.md R40 -/
  inBuf        : Memory
  /-- buffer `KM`, 10_state.md R40 -/
  kmBuf        : Memory
  /-- buffer `IV`, 10_state.md R40 -/
  ivBuf        : Memory
  /-- buffer `REF`, 10_state.md R40 -/
  refBuf       : Memory
  /-- buffer `OUT`, 10_state.md R40 -/
  outBuf       : Memory
  /-- The parameter `CAP` of this core (00_scope.md R8, 10_state.md R36). No step changes it. -/
  cap          : Word
  /-- DESIGN CHOICE, the model's own: the steps the agents take next, in order (notes/assumptions/1.md). -/
  schedule     : List AgentStep
  /-- DESIGN CHOICE, the model's own: what the host's reads returned, newest first (notes/assumptions/4.md). -/
  replies      : List Reply
deriving DecidableEq, Repr

/-- No step of this hardware faults: errors are values of `ERR` (60_exceptions.md R240), and "every enabled step has a
defined outcome" (93_implementation_defined.md section 2). The type has no constructor: nobody raises one. Safe, since
nothing the spec lets go on is stopped (notes/assumptions/10.md). -/
inductive Fault where
deriving DecidableEq, Repr

/-- Why the model has no meaning for an instruction. -/
inductive Refusal where
  /-- Raised only by an arm of `exec` that has no meaning yet, with the instruction's mnemonic; no arm is left so, and
  nobody raises it. Safe: it stops where the hardware goes on. -/
  | notModelled (mnemonic : String)
deriving DecidableEq, Repr

/-- The state after `Reset` of a core built with `CAP = cap` (70_reset_and_hazards.md R280), with nothing scheduled and
nothing read yet. -/
def State.resetWith (cap : Word) : State where
  phase        := .idle
  vres         := .none
  err          := .none
  inLen        := 0
  kmLen        := 0
  ivLen        := 0
  refLen       := 0
  outLen       := 0
  mismatchAt   := 0
  mismatchInfo := ⟨none, none⟩
  lastCmd      := 0
  inBuf        := []
  kmBuf        := []
  ivBuf        := []
  refBuf       := []
  outBuf       := []
  cap          := cap
  schedule     := []
  replies      := []

/-- The machine right after reset. Its `CAP` is a DESIGN CHOICE (notes/assumptions/5.md). -/
def State.reset : State := State.resetWith Config.resetCap

end Sys2Proof.Machine
end

