-- ==== Sys2Proof/Machine/Ops.lean ====
section
/-! DEFINITION. The named operations over buffers and registers, the four ways a step writes them (START, completion,
discard, a host write), and what an error leaves (60_exceptions.md R246). -/

namespace Sys2Proof.Machine

/-! ## One buffer space -/

/-- The byte at index `a`; a byte not listed is 0x00. -/
def Memory.read : Memory → Nat → Byte
  | [], _ => 0
  | c :: m, a => if c.1 = a then c.2 else Memory.read m a

/-- Put byte `b` at index `a`, keeping the canonical form (writing 0x00 takes the entry away). -/
def Memory.write : Memory → Nat → Byte → Memory
  | [], a, b => if b = 0 then [] else [(a, b)]
  | c :: m, a, b =>
    if a < c.1 then (if b = 0 then c :: m else (a, b) :: c :: m)
    else if a = c.1 then (if b = 0 then m else (a, b) :: m)
    else c :: Memory.write m a b

/-- A byte sequence at indices `a`, `a + 1`, …, and 0x00 everywhere else (20_memory.md R65: element `i` at index `i`). -/
def Memory.ofBytesFrom (a : Nat) : List Byte → Memory
  | [] => []
  | b :: bs => if b = 0 then Memory.ofBytesFrom (a + 1) bs else (a, b) :: Memory.ofBytesFrom (a + 1) bs

/-- A byte sequence from index 0 upward, and 0x00 above it. -/
def Memory.ofBytes (bs : List Byte) : Memory := Memory.ofBytesFrom 0 bs

/-- `Buf(S)[0 .. n)`, the byte sequence read from indices 0 to `n - 1` (00_scope.md R13). -/
def Memory.bytes (m : Memory) (n : Nat) : List Byte := (List.range n).map m.read

/-! ## The buffer spaces of a core -/

/-- `size(S)`: `size(IV) == 16`, and `CAP` for the other four (20_memory.md R60). -/
def State.size (s : State) : Space → Nat
  | .iv => Config.ivBytes
  | .inp | .km | .ref | .out => s.cap.toNat

/-- The buffer of a space. -/
def State.buf (s : State) : Space → Memory
  | .inp => s.inBuf
  | .km  => s.kmBuf
  | .iv  => s.ivBuf
  | .ref => s.refBuf
  | .out => s.outBuf

/-- The state with the buffer of one space replaced. -/
def State.setBuf (s : State) (sp : Space) (m : Memory) : State :=
  match sp with
  | .inp => { s with inBuf := m }
  | .km  => { s with kmBuf := m }
  | .iv  => { s with ivBuf := m }
  | .ref => { s with refBuf := m }
  | .out => { s with outBuf := m }

/-- What `HostReadBuf(S, i)` returns: the byte, and 0x00 for an index at or above the size (20_memory.md R63). -/
def State.readBuf (s : State) (sp : Space) (i : Nat) : Byte :=
  if i < s.size sp then (s.buf sp).read i else 0

/-- `HostWriteBuf(S, i, b)` (20_memory.md R62): without effect in phase BUSY (70_reset_and_hazards.md R285), on OUT, and
at an index at or above the size. -/
def State.hostWriteBuf (s : State) (sp : Space) (i : Nat) (b : Byte) : State :=
  if s.phase = .busy then s
  else if sp = .out then s
  else if s.size sp ≤ i then s
  else s.setBuf sp ((s.buf sp).write i b)

/-! ## Registers -/

/-- The register a number selects (10_state.md R22); 11 and above are unassigned. -/
def RegName.ofNumber (n : Word) : Option RegName :=
  match n.toNat with
  | 0  => some .cmd
  | 1  => some .status
  | 2  => some .inLen
  | 3  => some .kmLen
  | 4  => some .ivLen
  | 5  => some .refLen
  | 6  => some .outLen
  | 7  => some .mismatchAt
  | 8  => some .mismatchInfo
  | 9  => some .lastCmd
  | 10 => some .cap
  | _  => none

/-- The number of a register (10_state.md R22). -/
def RegName.number : RegName → Word
  | .cmd          => 0
  | .status       => 1
  | .inLen        => 2
  | .kmLen        => 3
  | .ivLen        => 4
  | .refLen       => 5
  | .outLen       => 6
  | .mismatchAt   => 7
  | .mismatchInfo => 8
  | .lastCmd      => 9
  | .cap          => 10

/-- A word stored in a register that only holds its value: the four length registers take any word
(10_state.md R27 to R30); the read-only registers and `CMD` store nothing (R22, R23). -/
def State.storeReg (s : State) (r : RegName) (w : Word) : State :=
  match r with
  | .inLen  => { s with inLen := w }
  | .kmLen  => { s with kmLen := w }
  | .ivLen  => { s with ivLen := w }
  | .refLen => { s with refLen := w }
  | .cmd | .status | .outLen | .mismatchAt | .mismatchInfo | .lastCmd | .cap => s

/-! ## START, completion, discard -/

/-- `START(w)` (44_control_ops.md R220): the word is latched, every result is cleared, the phase is BUSY. -/
def State.start (s : State) (w : Word) : State :=
  { s with
    lastCmd      := w
    err          := .none
    vres         := .none
    outLen       := 0
    outBuf       := []
    mismatchAt   := 0
    mismatchInfo := ⟨none, none⟩
    phase        := .busy }

/-- What `Exec` returns (44_control_ops.md R223): the tuple `(ERR, VRES, out, MISMATCH_AT, MISMATCH_INFO)`. -/
structure Result where
  err          : Err
  vres         : Vres
  out          : List Byte
  mismatchAt   : Word
  mismatchInfo : MismatchInfo
deriving DecidableEq, Repr

/-- The one write of all results (44_control_ops.md R221, R223; 10_state.md R34): the output at indices 0 upward, 0x00
above it, its length in `OUT_LEN`, and `PHASE <- DONE`. -/
def State.finish (s : State) (r : Result) : State :=
  { s with
    err          := r.err
    vres         := r.vres
    outLen       := BitVec.ofNat 32 r.out.length
    outBuf       := Memory.ofBytes r.out
    mismatchAt   := r.mismatchAt
    mismatchInfo := r.mismatchInfo
    phase        := .done }

/-- Every register and every buffer byte of the core as after reset (44_control_ops.md R222, 70_reset_and_hazards.md
R280): "The state after `CLEAR` equals the reset state". The parameter `CAP` and what lies outside the core, the
schedule and the host's replies, stay. -/
def State.discard (s : State) : State :=
  { State.resetWith s.cap with schedule := s.schedule, replies := s.replies }

/-- What a command that ends with an error kind other than `Mismatch` leaves (60_exceptions.md R246): this hardware's
form of taking an exception. `VRES` is `ERROR` if the command was decoded with `V == 1`, else `NONE`. -/
def Result.failed (verify : Bool) (k : Err) : Result :=
  ⟨k, if verify then .error else .none, [], 0, ⟨none, none⟩⟩

/-- `EngineComplete` (44_control_ops.md R221) with the result that `run` computes from the state: it is "enabled exactly when
`PHASE == BUSY`"; in the other phases the engine does nothing (60_exceptions.md R260). -/
def State.completeWith (s : State) (run : State → Result) :
    Host.Outcome State Fault Refusal :=
  if s.phase = .busy then .next (s.finish (run s)) else .next s

/-! ## The model's own fields -/

/-- The rest of the schedule. -/
def State.withSchedule (s : State) (l : List AgentStep) : State := { s with schedule := l }

/-- What a read returned, handed to the host. -/
def State.answer (s : State) (r : Reply) : State := { s with replies := r :: s.replies }

end Sys2Proof.Machine
end

