-- ==== Sys2Proof/Machine/Operands.lean ====
section
/-! DEFINITION. The implicit operands of the commands (30_encoding.md R90; the "Operands" lines of 40_otp_xor.md R111,
R112 and 41_aes_cbc_decrypt.md R130, R137; 20_memory.md R71), and the capacity check on their lengths. -/

namespace Sys2Proof.Machine

/-- `IN[0 .. IN_LEN)`, the input sequence. -/
def State.input (s : State) : List Byte := s.inBuf.bytes s.inLen.toNat

/-- `KM[0 .. IN_LEN)`, the part of the pad that `XOR` reads (10_state.md R42). -/
def State.pad (s : State) : List Byte := s.kmBuf.bytes s.inLen.toNat

/-- `KM[0 .. 16)`, the AES key (10_state.md R42). -/
def State.key (s : State) : List Byte := s.kmBuf.bytes Config.keyBytes

/-- `IV[0 .. 16)`, the initialization vector. -/
def State.ivBytes (s : State) : List Byte := s.ivBuf.bytes Config.ivBytes

/-- `REF[0 .. REF_LEN)`, the reference plaintext (43_verify_compare.md R201). -/
def State.reference (s : State) : List Byte := s.refBuf.bytes s.refLen.toNat

/-- `OUT[0 .. OUT_LEN)`, the output sequence. -/
def State.output (s : State) : List Byte := s.outBuf.bytes s.outLen.toNat

/-- The capacity check (60_exceptions.md R243): `IN_LEN > CAP`, or `KM_LEN > CAP` for `XOR`, or `REF_LEN > CAP` for
`V == 1`. -/
def State.overCapacity (s : State) (isXor verify : Bool) : Bool :=
  s.cap < s.inLen || (isXor && s.cap < s.kmLen) || (verify && s.cap < s.refLen)

end Sys2Proof.Machine
end

