-- ==== Sys2Proof/Machine/Verify.lean ====
section
/-! DEFINITION. The byte-exact comparator (43_verify_compare.md) and stage 4 of `Exec` (44_control_ops.md R223). -/

namespace Sys2Proof.Machine

/-- What `Compare` returns (43_verify_compare.md R203). A byte of `fail` is absent where its sequence has ended. -/
inductive Verdict where
  | pass
  | fail (index : Nat) (expected actual : Option Byte)
deriving DecidableEq, Repr

/-- `Compare` on what is left of the two sequences from index `d` on. -/
def compareBytesFrom (d : Nat) : List Byte → List Byte → Verdict
  | [], []           => .pass
  | a :: as, e :: es => if a = e then compareBytesFrom (d + 1) as es else .fail d (some e) (some a)
  | [], e :: _       => .fail d (some e) none
  | a :: _, []       => .fail d none (some a)

/-- `Compare(actual, expected)` (43_verify_compare.md R203). -/
def compareBytes (actual expected : List Byte) : Verdict := compareBytesFrom 0 actual expected

/-- What the comparator writes (43_verify_compare.md R204); the output stays whole in both cases. -/
def Verdict.result (out : List Byte) : Verdict → Result
  | .pass        => ⟨.none, .pass, out, 0, ⟨none, none⟩⟩
  | .fail d e a  => ⟨.mismatch, .fail, out, BitVec.ofNat 32 d, ⟨e, a⟩⟩

/-- Stage 4 of `Exec` (44_control_ops.md R223, 43_verify_compare.md R200): the result of a command whose engine answered
`r`, an error kind or its output. Without `V` the output stands alone; with `V` an error is `ERROR` and reads no REF,
and an output is compared with `reference`. -/
def judge (verify : Bool) (reference : List Byte) (r : Except Err (List Byte)) : Result :=
  match r with
  | .error k => Result.failed verify k
  | .ok out =>
    if verify then (compareBytes out reference).result out
    else ⟨.none, .none, out, 0, ⟨none, none⟩⟩

/-- Stages 2 to 4 of `Exec` (44_control_ops.md R223) for one engine: the capacity check comes before the engine, the
engine before the comparison (60_exceptions.md R247). -/
def State.commandResult (s : State) (isXor verify : Bool) (engine : State → Except Err (List Byte)) : Result :=
  judge verify s.reference
    (if s.overCapacity isXor verify then .error .capacityExceeded else engine s)

/-- The result of a command word that is reserved (60_exceptions.md R242): `VRES` is `NONE` whatever bit 8 is. -/
def invalidCommandResult : Result := Result.failed false .invalidCommand

end Sys2Proof.Machine
end

