-- ==== Sys2Proof/Machine/Cbc.lean ====
section
/-! DEFINITION. The AES-128-CBC decryption unit (41_aes_cbc_decrypt.md): commands `CBCDEC` and `CBCDEC.V`. -/

namespace Sys2Proof.Machine

/-- The blocks `C(1) .. C(n)`, `n = len / 16`, block `k` the bytes `[16*(k-1) .. 16*k)` (41_aes_cbc_decrypt.md R132). -/
def blocksOf (ct : List Byte) : List Block :=
  (List.range (ct.length / Config.blockBytes)).map fun k => blockOf (ct.drop (Config.blockBytes * k))

/-- The bytes of a sequence of blocks, in order. -/
def bytesOf (bs : List Block) : List Byte := bs.flatMap Block.bytes

/-- The chain (41_aes_cbc_decrypt.md R134): `P(k) = BlockDecrypt(C(k), key) ^ C(k-1)`, from the chaining block `prev`
on. "The same key schedule serves all `n` blocks." -/
def cbcChain (rk : List Block) (prev : Block) : List Block → List Block
  | [] => []
  | c :: cs => (decryptWith rk c).xor prev :: cbcChain rk c cs

/-- `CbcRaw(ct, key, iv)` (41_aes_cbc_decrypt.md R134): the chained plaintext before padding removal. -/
def cbcRaw (ct key iv : List Byte) : List Byte :=
  bytesOf (cbcChain (keyExpansion (blockOf key)) (blockOf iv) (blocksOf ct))

/-- `Unpad(raw)` (41_aes_cbc_decrypt.md R135): `none` is the invalid padding. -/
def unpad (raw : List Byte) : Option (List Byte) :=
  let p := (raw.getLastD 0).toNat
  if 1 ≤ p ∧ p ≤ Config.blockBytes ∧ (raw.drop (raw.length - p)).all (fun b => b.toNat = p) then
    some (raw.take (raw.length - p))
  else none

/-- `CbcEncryptRaw(x, key, iv)` (42_aes128_inverse_cipher.md R176), a reference function, "not hardware": the chain
without `Pad`, for a positive multiple of 16 bytes. -/
def cbcEncryptRaw (x key iv : List Byte) : List Byte :=
  bytesOf (cbcEncryptChain (keyExpansion (blockOf key)) (blockOf iv) (blocksOf x))

/-- `CbcEncrypt(m, key, iv)` (42_aes128_inverse_cipher.md R176), a reference function, "not hardware". -/
def cbcEncrypt (m key iv : List Byte) : List Byte := cbcEncryptRaw (pad m) key iv

/-- The input checks of `CBCDEC` (41_aes_cbc_decrypt.md R131), on the length registers alone. -/
def State.cipherLengthsOk (s : State) : Bool :=
  s.kmLen.toNat = Config.keyBytes && s.ivLen.toNat = Config.ivBytes &&
    s.inLen.toNat % Config.blockBytes = 0 && 0 < s.inLen.toNat

/-- The engine part of `CBCDEC` (41_aes_cbc_decrypt.md R130): input checks, chaining, padding removal. -/
def cbcEngine (s : State) : Except Err (List Byte) :=
  if s.cipherLengthsOk then
    match unpad (cbcRaw s.input s.key s.ivBytes) with
    | some out => .ok out
    | none     => .error .invalidPadding
  else .error .invalidCipherInput

/-- `CBCDEC` (41_aes_cbc_decrypt.md R130), executed inside `EngineComplete`. -/
def execCbcdec (s : State) : Host.Outcome State Fault Refusal :=
  s.completeWith fun s => s.commandResult false false cbcEngine

/-- `CBCDEC.V` (41_aes_cbc_decrypt.md R137): the decryption followed by the comparison with REF. -/
def execCbcdecV (s : State) : Host.Outcome State Fault Refusal :=
  s.completeWith fun s => s.commandResult false true cbcEngine

end Sys2Proof.Machine
end

