-- ==== Sys2Proof/Machine/Control.lean ====
section
/-! DEFINITION. The command `CLEAR` (44_control_ops.md R222). -/

namespace Sys2Proof.Machine

/-- `CLEAR` (44_control_ops.md R222): "takes effect at once, in the host write itself, in phase IDLE or DONE"; "In phase
BUSY the write is ignored like every other write". -/
def execClear (s : State) : Host.Outcome State Fault Refusal :=
  if s.phase = .busy then .next s else .next s.discard

end Sys2Proof.Machine
end

