-- ==== Sys2Proof/Machine/Xor.lean ====
section
/-! DEFINITION. The OTP XOR unit (40_otp_xor.md): commands `XOR` and `XOR.V`. -/

namespace Sys2Proof.Machine

/-- `XorTransform(x, k)` (40_otp_xor.md R110): `y[i] == x[i] ^ k[i]`; bytes of `k` past the end of `x` are not used. -/
def xorTransform (x k : List Byte) : List Byte := List.zipWith (· ^^^ ·) x k

/-- What one group of lanes writes (40_otp_xor.md R115): lane `j` of the group at index `g` writes byte `g + j` when that
index is inside the input; the other lanes are idle. -/
def laneWrites (lanes g : Nat) (x k : List Byte) : List (Nat × Byte) :=
  (List.range lanes).filterMap fun j =>
    match x[g + j]?, k[g + j]? with
    | some a, some b => some (g + j, a ^^^ b)
    | _, _           => none

/-- OUT as the XOR unit leaves it when it works `lanes` bytes at a time (40_otp_xor.md R115; parameter `LANES`,
00_scope.md R8), the groups processed in the order given; group `q` starts at index `q * lanes`. -/
def xorByLanes (lanes : Nat) (order : List Nat) (x k : List Byte) : Memory :=
  (order.flatMap fun q => laneWrites lanes (q * lanes) x k).foldl (fun m c => m.write c.1 c.2) []

/-- The engine part of `XOR` (40_otp_xor.md R111): the length check on the two length registers, then the transform. -/
def xorEngine (s : State) : Except Err (List Byte) :=
  if s.kmLen < s.inLen then .error .insufficientKeyMaterial
  else .ok (xorTransform s.input s.pad)

/-- `XOR` (40_otp_xor.md R111), executed inside `EngineComplete`. -/
def execXor (s : State) : Host.Outcome State Fault Refusal :=
  s.completeWith fun s => s.commandResult true false xorEngine

/-- `XOR.V` (40_otp_xor.md R112): the transform followed by the comparison with REF. -/
def execXorV (s : State) : Host.Outcome State Fault Refusal :=
  s.completeWith fun s => s.commandResult true true xorEngine

end Sys2Proof.Machine
end

