-- ==== Sys2Proof/Machine/Dispatch.lean ====
section
/-! DEFINITION. One arm per command (30_encoding.md R92). -/

namespace Sys2Proof.Machine

/-- The meaning of a command: the atomic step that performs it. For the four engine commands that is `EngineComplete`
(44_control_ops.md R221), for `CLEAR` the host's write of it (R222). -/
def exec (i : Instr) (s : State) : Host.Outcome State Fault Refusal :=
  match i with
  | .xor => Sys2Proof.Machine.execXor s
  | .xorV => Sys2Proof.Machine.execXorV s
  | .cbcdec => Sys2Proof.Machine.execCbcdec s
  | .cbcdecV => Sys2Proof.Machine.execCbcdecV s
  | .clear => Sys2Proof.Machine.execClear s

end Sys2Proof.Machine
end

