-- ==== Sys2Proof/Machine/Flags.lean ====
section
/-! DEFINITION. The status fields as numbers and words (10_state.md R24, R33, R38), the output `done` (R54), and what
the host reads in a register (44_control_ops.md R219). -/

namespace Sys2Proof.Machine

/-- The value of `PHASE`, bits 1:0 of STATUS (10_state.md R24). -/
def Phase.code : Phase → Word
  | .idle => 0
  | .busy => 1
  | .done => 2

/-- The value of `VRES`, bits 3:2 of STATUS (10_state.md R24). -/
def Vres.code : Vres → Word
  | .none  => 0
  | .pass  => 1
  | .fail  => 2
  | .error => 3

/-- The value of `ERR`, bits 7:4 of STATUS (60_exceptions.md R241). -/
def Err.code : Err → Word
  | .none                    => 0
  | .insufficientKeyMaterial => 1
  | .invalidCipherInput      => 2
  | .invalidPadding          => 3
  | .mismatch                => 4
  | .invalidCommand          => 5
  | .capacityExceeded        => 6

/-- The STATUS word: `PHASE | (VRES << 2) | (ERR << 4)` (10_state.md R24). -/
def State.status (s : State) : Word :=
  s.phase.code ||| (s.vres.code <<< 2) ||| (s.err.code <<< 4)

/-- A byte that may be absent, as its field reads: 0 when absent (10_state.md R33). -/
def optByteField (b : Option Byte) : Word := (b.getD 0).setWidth 32

/-- The valid bit of a byte that may be absent (10_state.md R33). -/
def optByteValid (b : Option Byte) : Word := if b.isSome then 1 else 0

/-- The word of `MISMATCH_INFO`: `e | (a << 8) | (ev << 16) | (av << 17)` (43_verify_compare.md R204, 10_state.md R33). -/
def MismatchInfo.word (m : MismatchInfo) : Word :=
  optByteField m.expected ||| (optByteField m.actual <<< 8) |||
    (optByteValid m.expected <<< 16) ||| (optByteValid m.actual <<< 17)

/-- The level output `done` (10_state.md R54, 60_exceptions.md R250): 1 exactly when `PHASE == DONE`. -/
def State.doneLine (s : State) : Bool := s.phase = .done

/-- What an assigned register reads as, in every phase (44_control_ops.md R219). `CMD` reads 0 (10_state.md R23). -/
def State.loadReg (s : State) : RegName → Word
  | .cmd          => 0
  | .status       => s.status
  | .inLen        => s.inLen
  | .kmLen        => s.kmLen
  | .ivLen        => s.ivLen
  | .refLen       => s.refLen
  | .outLen       => s.outLen
  | .mismatchAt   => s.mismatchAt
  | .mismatchInfo => s.mismatchInfo.word
  | .lastCmd      => s.lastCmd
  | .cap          => s.cap

/-- What `HostReadReg(n)` returns (44_control_ops.md R219); an unassigned number reads 0 (10_state.md R37). -/
def State.readReg (s : State) (n : Word) : Word :=
  match RegName.ofNumber n with
  | some r => s.loadReg r
  | none   => 0

end Sys2Proof.Machine
end

