-- ==== Sys2Proof/Machine/Agents.lean ====
section
/-! DEFINITION. The steps of the three agents (10_state.md R52). -/

namespace Sys2Proof.Machine

/-- `HostWriteReg(n, w)` (44_control_ops.md R218): without effect in phase BUSY (70_reset_and_hazards.md R285); a word
written to `CMD` is `CLEAR` or a START of whatever it is (10_state.md R23); the other registers store it or ignore it. -/
def hostWriteReg (s : State) (n w : Word) : Host.Outcome State Fault Refusal :=
  if s.phase = .busy then .next s
  else
    match RegName.ofNumber n with
    | some .cmd =>
      match decode w with
      | .ok .clear => exec .clear s
      | _          => .next (s.start w)
    | some r => .next (s.storeReg r w)
    | none   => .next s

/-- `EngineComplete` (44_control_ops.md R221) with `Exec` of R223: the latched word is decoded and the command it stands
for completes; a reserved word, and `CLEAR`, "which cannot be latched", complete with `InvalidCommand`. -/
def engineComplete (s : State) : Host.Outcome State Fault Refusal :=
  match decode s.lastCmd with
  | .error _   => s.completeWith fun _ => invalidCommandResult
  | .ok .clear => s.completeWith fun _ => invalidCommandResult
  | .ok i      => exec i s

/-- One step of one agent (10_state.md R52). A read changes nothing of the core (20_memory.md R70, 44_control_ops.md
R219): what it returns goes to the host. -/
def perform (a : AgentStep) (s : State) : Host.Outcome State Fault Refusal :=
  match a with
  | .hostWriteReg n w      => hostWriteReg s n w
  | .hostReadReg n         => .next (s.answer (.reg n (s.readReg n)))
  | .hostWriteBuf sp i b   => .next (s.hostWriteBuf sp i b)
  | .hostReadBuf sp i      => .next (s.answer (.byte sp i (s.readBuf sp i)))
  | .engineComplete        => engineComplete s
  | .reset                 => .next s.discard

/-- The next step of the machine: the first scheduled step of an agent; when none is scheduled the engine alone is left
to act, and it acts exactly in phase BUSY (10_state.md R53). -/
def advance (s : State) : Host.Outcome State Fault Refusal :=
  match s.schedule with
  | []     => engineComplete s
  | a :: l => perform a (s.withSchedule l)

/-- `s` with the command word `w` where the machine takes its next command from. A word of `CLEAR` stands in the host's
next write, which is what performs it (44_control_ops.md R222; a running command, whose BUSY phase would drop the write,
is taken as completed with nothing). Every other word stands latched in `LASTCMD` as its START leaves it (R220), the
engine's step next. -/
def State.withCommand (s : State) (w : Word) : State :=
  match decode w with
  | .ok .clear =>
    { s with
      phase    := if s.phase = .busy then .done else s.phase
      schedule := .hostWriteReg RegName.cmd.number w :: s.schedule }
  | _ => (s.start w).withSchedule (.engineComplete :: s.schedule)

end Sys2Proof.Machine
end

