-- ==== Sys2Proof/Machine/Step.lean ====
section
/-! DEFINITION. One step of the machine, and a command placed where the next step takes it from. -/

namespace Sys2Proof.Machine

/-- One atomic step (00_scope.md R14): the next one of the agents' (10_state.md R52). -/
def step (s : State) : Host.Outcome State Fault Refusal := advance s

/-- `s` with the command whose lowest `nbits` bits are those of `w`, and whose other bits are 0, placed so that the very
next step runs it (notes/assumptions/7.md). -/
def State.withFetchWord (s : State) (nbits w : Nat) : State :=
  s.withCommand (BitVec.ofNat 32 (w % 2 ^ nbits))

end Sys2Proof.Machine
end

