-- ==== Sys2Proof/Machine/Script.lean ====
section
/-! DEFINITION. The host-script notation (30_encoding.md R95 to R97): each line and pseudo-step as the agents' steps it
denotes. -/

namespace Sys2Proof.Machine

/-- The length register that goes with a space (20_memory.md R65). -/
def Space.lenReg : Space → RegName
  | .inp => .inLen
  | .km  => .kmLen
  | .iv  => .ivLen
  | .ref => .refLen
  | .out => .outLen

/-- `WR CMD, <the word of the command>` (30_encoding.md R95). -/
def Script.command (i : Instr) : AgentStep := .hostWriteReg RegName.cmd.number (encode i)

/-- `WB <space>[i], <bytes>[i]` for rising `i` from `i₀` on. -/
def Script.writeBytes (sp : Space) (i₀ : Nat) : List Byte → List AgentStep
  | [] => []
  | b :: bs => .hostWriteBuf sp i₀ b :: Script.writeBytes sp (i₀ + 1) bs

/-- `LOAD <space>, <bytes>` (30_encoding.md R96): the bytes from index 0 upward, then the length. -/
def Script.load (sp : Space) (bytes : List Byte) : List AgentStep :=
  Script.writeBytes sp 0 bytes ++ [.hostWriteReg sp.lenReg.number (BitVec.ofNat 32 bytes.length)]

/-- `WAIT` (30_encoding.md R96): "`STEP` if `PHASE == BUSY`, then `RD STATUS`"; `EngineComplete` does nothing in the other
phases. -/
def Script.wait : List AgentStep := [.engineComplete, .hostReadReg RegName.status.number]

/-- `RUN <mnemonic>` (30_encoding.md R96). -/
def Script.run (i : Instr) : List AgentStep := Script.command i :: Script.wait

/-- `DUMP` (30_encoding.md R96), `outLen` being what `RD OUT_LEN` returns. -/
def Script.dump (outLen : Nat) : List AgentStep :=
  [.hostReadReg RegName.status.number, .hostReadReg RegName.outLen.number] ++
  (List.range outLen).map (AgentStep.hostReadBuf .out) ++
  [.hostReadReg RegName.mismatchAt.number, .hostReadReg RegName.mismatchInfo.number]

/-- The first canonical sequence of 30_encoding.md R97, up to its `DUMP`: the OTP contract. -/
def Script.otp (ciphertext pad : List Byte) : List AgentStep :=
  Script.load .inp ciphertext ++ Script.load .km pad ++ Script.run .xor

/-- The second canonical sequence of 30_encoding.md R97, up to its `DUMP`: the block-cipher contract. -/
def Script.cbc (ciphertext key iv : List Byte) : List AgentStep :=
  Script.load .inp ciphertext ++ Script.load .km key ++ Script.load .iv iv ++ Script.run .cbcdec

/-- The third canonical sequence of 30_encoding.md R97 for the OTP scheme, with the `CLEAR` that ends it. -/
def Script.verifyOtp (plaintext ciphertext pad : List Byte) (outLen : Nat) : List AgentStep :=
  Script.load .ref plaintext ++ Script.load .inp ciphertext ++ Script.load .km pad ++ Script.run .xorV ++
  Script.dump outLen ++ [Script.command .clear]

/-- The third canonical sequence of 30_encoding.md R97 for the block cipher, with the `CLEAR` that ends it. -/
def Script.verifyCbc (plaintext ciphertext key iv : List Byte) (outLen : Nat) : List AgentStep :=
  Script.load .ref plaintext ++ Script.load .inp ciphertext ++ Script.load .km key ++ Script.load .iv iv ++
  Script.run .cbcdecV ++ Script.dump outLen ++ [Script.command .clear]

end Sys2Proof.Machine
end

