-- ==== Sys2Proof/Safety.lean ====
section
/-! DEFINITION. What the statements say of a state and of two states: the reachable-state invariant (10_state.md R55),
the frames, and a command's result. -/

namespace Sys2Proof.Machine

/-- Every listed byte lies below index `n`. -/
abbrev Memory.endsBy (m : Memory) (n : Nat) : Prop := ∀ c ∈ m, c.1 < n

/-! ## The invariant -/

/-- The legal combinations of `PHASE`, `VRES`, `ERR`: the fourteen rows of 43_verify_compare.md R206. -/
def legalStatus : List (Phase × Vres × Err) :=
  [(.idle, .none, .none),
   (.busy, .none, .none),
   (.done, .none, .none),
   (.done, .none, .insufficientKeyMaterial),
   (.done, .none, .invalidCipherInput),
   (.done, .none, .invalidPadding),
   (.done, .none, .invalidCommand),
   (.done, .none, .capacityExceeded),
   (.done, .pass, .none),
   (.done, .fail, .mismatch),
   (.done, .error, .insufficientKeyMaterial),
   (.done, .error, .invalidCipherInput),
   (.done, .error, .invalidPadding),
   (.done, .error, .capacityExceeded)]

/-- Every result field of 10_state.md R34 is zero, OUT included. -/
abbrev State.resultsClear (s : State) : Prop :=
  s.err = .none ∧ s.vres = .none ∧ s.outLen = 0 ∧ s.outBuf = [] ∧ s.mismatchAt = 0 ∧
    s.mismatchInfo = ⟨none, none⟩

/-- The invariant of every reachable state: 10_state.md R55 (a) to (i), with R31 to R33, R35, the constraint on `CAP`
(00_scope.md R8), and the canonical form and the bounds of the buffers. -/
structure State.Inv (s : State) : Prop where
  /-- `16 <= CAP`, 00_scope.md R8 -/
  cap_min : Config.minCap ≤ s.cap
  /-- every buffer is in canonical form -/
  buf_wf : ∀ sp, (s.buf sp).wf
  /-- no buffer holds a byte at or above its size, 20_memory.md R60 -/
  buf_fits : ∀ sp, (s.buf sp).endsBy (s.size sp)
  /-- R55 (a), (e), (f), (g), (h), by the table of 43_verify_compare.md R206 -/
  status_legal : (s.phase, s.vres, s.err) ∈ legalStatus
  /-- R55 (b) -/
  idle_clear : s.phase = .idle → s.resultsClear ∧ s.lastCmd = 0
  /-- R55 (c) -/
  busy_clear : s.phase = .busy → s.resultsClear
  /-- R55 (d) -/
  outLen_le : s.outLen ≤ s.cap
  /-- R55 (d) -/
  out_ends : s.outBuf.endsBy s.outLen.toNat
  /-- R55 (i) -/
  out_ok : s.outLen ≠ 0 → s.err = .none ∨ s.err = .mismatch
  /-- `MISMATCH_AT` and `MISMATCH_INFO` are 0 whenever `VRES != FAIL`, 10_state.md R32, R33 -/
  mismatch_zero : s.vres ≠ .fail → s.mismatchAt = 0 ∧ s.mismatchInfo = ⟨none, none⟩
  /-- "When `VRES == FAIL` at least one of the two valid bits is 1", 10_state.md R33 -/
  mismatch_valid : s.vres = .fail → s.mismatchInfo.expected.isSome ∨ s.mismatchInfo.actual.isSome
  /-- "A `CLEAR` word is never stored in it", 10_state.md R35 -/
  lastCmd_not_clear : s.lastCmd ≠ encode .clear

/-! ## Frames -/

/-- What no command of the engine changes (40_otp_xor.md R117, 41_aes_cbc_decrypt.md R142, 10_state.md R41): the length
registers, `LASTCMD`, `CAP`, every byte of IN, KM, IV and REF, and the model's own two fields. -/
structure State.KeepsInputs (s t : State) : Prop where
  inLen    : t.inLen = s.inLen
  kmLen    : t.kmLen = s.kmLen
  ivLen    : t.ivLen = s.ivLen
  refLen   : t.refLen = s.refLen
  lastCmd  : t.lastCmd = s.lastCmd
  cap      : t.cap = s.cap
  bytes    : ∀ sp, sp ≠ .out → ∀ a, (t.buf sp).read a = (s.buf sp).read a
  schedule : t.schedule = s.schedule
  replies  : t.replies = s.replies

/-- The result fields and the phase are the same (10_state.md R34). -/
structure State.KeepsResults (s t : State) : Prop where
  phase        : t.phase = s.phase
  err          : t.err = s.err
  vres         : t.vres = s.vres
  outLen       : t.outLen = s.outLen
  mismatchAt   : t.mismatchAt = s.mismatchAt
  mismatchInfo : t.mismatchInfo = s.mismatchInfo
  bytes        : ∀ a, t.outBuf.read a = s.outBuf.read a

/-- Everything of the core is as after reset (70_reset_and_hazards.md R280): each register, each buffer byte. -/
structure State.IsReset (s : State) : Prop where
  phase        : s.phase = .idle
  err          : s.err = .none
  vres         : s.vres = .none
  inLen        : s.inLen = 0
  kmLen        : s.kmLen = 0
  ivLen        : s.ivLen = 0
  refLen       : s.refLen = 0
  outLen       : s.outLen = 0
  mismatchAt   : s.mismatchAt = 0
  mismatchInfo : s.mismatchInfo.word = 0
  lastCmd      : s.lastCmd = 0
  bytes        : ∀ sp a, (s.buf sp).read a = 0

/-! ## Results -/

/-- OUT holds exactly the sequence `out`: its length is `OUT_LEN`, its bytes stand from index 0, and every byte above is
0x00 (10_state.md R31). -/
structure State.OutputIs (t : State) (out : List Byte) : Prop where
  length : t.outLen.toNat = out.length
  bytes  : ∀ i, t.outBuf.read i = out.getD i 0

/-- What `Exec` returns for the word latched in `LASTCMD` (44_control_ops.md R223). -/
def State.latchedResult (s : State) : Result :=
  match decode s.lastCmd with
  | .ok .xor     => s.commandResult true false xorEngine
  | .ok .xorV    => s.commandResult true true xorEngine
  | .ok .cbcdec  => s.commandResult false false cbcEngine
  | .ok .cbcdecV => s.commandResult false true cbcEngine
  | .ok .clear   => invalidCommandResult
  | .error _     => invalidCommandResult

/-- A command has completed with these results (44_control_ops.md R221, R223). -/
structure State.Completed (t : State) (e : Err) (v : Vres) (out : List Byte) (index : Nat) (info : MismatchInfo) :
    Prop where
  phase        : t.phase = .done
  err          : t.err = e
  vres         : t.vres = v
  output       : t.OutputIs out
  mismatchAt   : t.mismatchAt.toNat = index
  mismatchInfo : t.mismatchInfo = info

/-- A command has completed with exactly the result `r`. -/
abbrev State.CompletedWith (t : State) (r : Result) : Prop :=
  t.Completed r.err r.vres r.out r.mismatchAt.toNat r.mismatchInfo

/-- A command has ended with the error kind `e`, which is not `Mismatch`: the writes of 60_exceptions.md R246. -/
abbrev State.Failed (t : State) (e : Err) (verify : Bool) : Prop :=
  t.Completed e (if verify then .error else .none) [] 0 ⟨none, none⟩

/-- A command with `V == 1` whose engine answered `out` has completed with the verdict of the comparison
(43_verify_compare.md R204). -/
def State.Judged (t : State) (out : List Byte) : Verdict → Prop
  | .pass       => t.Completed .none .pass out 0 ⟨none, none⟩
  | .fail d e a => t.Completed .mismatch .fail out d ⟨e, a⟩

/-- The same bytes below index `n`. -/
abbrev Memory.agree (n : Nat) (m m' : Memory) : Prop := ∀ a, a < n → m.read a = m'.read a

end Sys2Proof.Machine
end

