-- ==== Sys2Proof/Certificates/Slice0/Obligations.lean ====
section
/-! DEFINITION. The statements for the provers. Each says which rule of spec/ it formalises, or which it is derived
from. `perform a s` is one step of one agent (10_state.md R52), `exec i s` the command `i` itself. -/

open Sys2Proof Sys2Proof.Machine

/-! ## Encoding -/

/-- 30_encoding.md R92: the five words, and the decoder as an equality test on the word. -/
def Obligations.CommandWordsAreExactlyTheTable : Prop :=
  (encode .xor = 0x00000001 ∧ encode .xorV = 0x00000101 ∧ encode .cbcdec = 0x00000002 ∧
    encode .cbcdecV = 0x00000102 ∧ encode .clear = 0x00000003) ∧
  ∀ (i : Instr) (w : Word), decode w = .ok i ↔ w = encode i

/-- 30_encoding.md section 2, the three kinds of reserved word of R93, each exactly: bits 31:9 not zero; those bits zero
and an undefined OP; and the word 0x00000103. -/
def Obligations.ReservedWordsAreRejectedByReason : Prop :=
  ∀ w : Word,
    (decode w = .error .reservedBits ↔ 512 ≤ w.toNat) ∧
    (decode w = .error .unknownOp ↔
      w.toNat < 512 ∧ w.toNat % 256 ≠ 1 ∧ w.toNat % 256 ≠ 2 ∧ w.toNat % 256 ≠ 3) ∧
    (decode w = .error .clearWithVerify ↔ w = 0x00000103)

/-- Words written out from 30_encoding.md R92 and 95_test_vectors.md C1 to C9, decoded. -/
def Obligations.SampleWordsDecode : Prop :=
  decode 0x00000001 = .ok .xor ∧ decode 0x00000101 = .ok .xorV ∧ decode 0x00000002 = .ok .cbcdec ∧
  decode 0x00000102 = .ok .cbcdecV ∧ decode 0x00000003 = .ok .clear ∧
  decode 0x00000000 = .error .unknownOp ∧ decode 0x00000103 = .error .clearWithVerify ∧
  decode 0x00000201 = .error .reservedBits ∧ decode 0x80000001 = .error .reservedBits

/-! ## The step -/

/-- The next step of the machine is the first scheduled agent step, on the state with the rest of the schedule. At the
engine's step the command latched in `LASTCMD` runs (44_control_ops.md R221, 20_memory.md R78), with nothing scheduled
too; `CLEAR` runs at the host's write of its word (R222). The schedule is the model's own (notes/assumptions/1.md, 2.md). -/
def Obligations.StepRunsTheDecodedCommand : Prop :=
  (∀ (s : State) (a : AgentStep) (l : List AgentStep), s.schedule = a :: l →
    step s = perform a (s.withSchedule l)) ∧
  (∀ (s : State) (l : List AgentStep) (i : Instr), s.schedule = .engineComplete :: l →
    decode s.lastCmd = .ok i → i ≠ .clear → step s = exec i (s.withSchedule l)) ∧
  (∀ (s : State) (i : Instr), s.schedule = [] → decode s.lastCmd = .ok i → i ≠ .clear → step s = exec i s) ∧
  (∀ (s : State) (l : List AgentStep) (w : Word), s.schedule = .hostWriteReg 0 w :: l → s.phase ≠ .busy →
    decode w = .ok .clear → step s = exec .clear (s.withSchedule l))

/-- A command placed by `withFetchWord` is what the very next step runs (notes/assumptions/7.md). -/
def Obligations.PlacedCommandRunsNext : Prop :=
  ∀ (s : State) (i : Instr),
    step (s.withFetchWord 32 (encode i).toNat) =
      exec i ((s.withFetchWord 32 (encode i).toNat).withSchedule s.schedule)

/-- 93_implementation_defined.md section 2: nothing is stuck, "every enabled step has a defined outcome"; a command and
a step of any agent too. -/
def Obligations.EveryStepAnswersNext : Prop :=
  ∀ s : State, (∃ t, step s = .next t) ∧ (∀ a : AgentStep, ∃ t, perform a s = .next t) ∧
    ∀ i : Instr, ∃ t, exec i s = .next t

/-- 10_state.md R53, in the model's terms (its schedule is a finite list after which the engine acts,
notes/assumptions/1.md, 2.md): from phase BUSY, after at most one step more than are scheduled, the command is over, and
if no `Reset` was scheduled it has completed. -/
def Obligations.BusyEnds : Prop :=
  ∀ s : State, s.phase = .busy →
    ∃ k, k ≤ s.schedule.length + 1 ∧ ∃ t : State, core.run k s = .next t ∧ t.phase ≠ .busy ∧
      (.reset ∉ s.schedule → t.phase = .done)

/-! ## Registers -/

/-- 44_control_ops.md R218. -/
def Obligations.HostWriteRegister : Prop :=
  ∀ (s : State) (n w : Word), ∃ t, perform (.hostWriteReg n w) s = .next t ∧
    (if s.phase = .busy then t = s
     else if n = 0 ∧ w = 0x00000003 then exec .clear s = .next t
     else if n = 0 then t = s.start w
     else if n = 2 then t = { s with inLen := w }
     else if n = 3 then t = { s with kmLen := w }
     else if n = 4 then t = { s with ivLen := w }
     else if n = 5 then t = { s with refLen := w }
     else t = s)

/-- 44_control_ops.md R219; the value goes to the host, and nothing else changes. -/
def Obligations.HostReadRegister : Prop :=
  ∀ (s : State) (n : Word), ∃ (t : State) (v : Word), perform (.hostReadReg n) s = .next t ∧
    t.replies = .reg n v :: s.replies ∧ { t with replies := s.replies } = s ∧
    v = (if n = 0 then (0 : Word)
         else if n = 1 then s.phase.code ||| (s.vres.code <<< 2) ||| (s.err.code <<< 4)
         else if n = 2 then s.inLen
         else if n = 3 then s.kmLen
         else if n = 4 then s.ivLen
         else if n = 5 then s.refLen
         else if n = 6 then s.outLen
         else if n = 7 then s.mismatchAt
         else if n = 8 then s.mismatchInfo.word
         else if n = 9 then s.lastCmd
         else if n = 10 then s.cap
         else 0)

/-- 10_state.md R24: the three fields with their code values, 24 zero bits, the value read, and a write ignored; R54:
the output `done` is 1 exactly in phase DONE, and 0 otherwise. -/
def Obligations.StatusWordFields : Prop :=
  ∀ s : State,
    s.readReg 1 = s.phase.code ||| (s.vres.code <<< 2) ||| (s.err.code <<< 4) ∧
    (s.readReg 1).extractLsb' 0 2 = (match s.phase with | .idle => 0 | .busy => 1 | .done => 2) ∧
    (s.readReg 1).extractLsb' 2 2 = (match s.vres with | .none => 0 | .pass => 1 | .fail => 2 | .error => 3) ∧
    (s.readReg 1).extractLsb' 4 4 = (match s.err with
      | .none => 0 | .insufficientKeyMaterial => 1 | .invalidCipherInput => 2 | .invalidPadding => 3
      | .mismatch => 4 | .invalidCommand => 5 | .capacityExceeded => 6) ∧
    (s.readReg 1).extractLsb' 8 24 = 0 ∧
    (∀ w, perform (.hostWriteReg 1 w) s = .next s) ∧
    (s.doneLine = true ↔ s.phase = .done) ∧ (s.doneLine = false ↔ s.phase ≠ .done)

/-- 10_state.md section 2, the fields of `MISMATCH_INFO` in the word the host reads: the bytes, the valid bits, fourteen
zero bits; a write is ignored. That an absent byte is one fact with its valid bit is the model's (notes/assumptions/11.md). -/
def Obligations.MismatchInfoFields : Prop :=
  ∀ s : State,
    (s.readReg 8).extractLsb' 0 8 = s.mismatchInfo.expected.getD 0 ∧
    (s.readReg 8).extractLsb' 8 8 = s.mismatchInfo.actual.getD 0 ∧
    (s.readReg 8).getLsbD 16 = s.mismatchInfo.expected.isSome ∧
    (s.readReg 8).getLsbD 17 = s.mismatchInfo.actual.isSome ∧
    (s.readReg 8).extractLsb' 18 14 = 0 ∧
    ∀ w, perform (.hostWriteReg 8 w) s = .next s

/-- 10_state.md R36: register 10 reads the parameter `CAP` in every phase, directly after reset too, no write to it has
an effect, and no step changes it. -/
def Obligations.CapRegisterIsConstant : Prop :=
  (∀ cap : Word, (State.resetWith cap).readReg 10 = cap) ∧
  ∀ s : State, s.readReg 10 = s.cap ∧ (∀ w, perform (.hostWriteReg 10 w) s = .next s) ∧
    ∀ (a : AgentStep) (t : State), perform a s = .next t → t.readReg 10 = s.readReg 10

/-- 10_state.md R37. -/
def Obligations.UnassignedRegistersReadZero : Prop :=
  ∀ (s : State) (n : Word), 11 ≤ n.toNat →
    perform (.hostReadReg n) s = .next (s.answer (.reg n 0)) ∧
    ∀ w, perform (.hostWriteReg n w) s = .next s

/-! ## Buffers -/

/-- 20_memory.md R62, with what every byte of every buffer reads as afterwards; the canonical form of the buffer written
is the invariant's (`StepKeepsInvariant`). -/
def Obligations.HostWriteBuffer : Prop :=
  ∀ (s : State) (sp : Space) (i : Nat) (b : Byte), (s.buf sp).wf →
    ∃ t, perform (.hostWriteBuf sp i b) s = .next t ∧
      (∀ sp' j, (t.buf sp').read j =
        if s.phase ≠ .busy ∧ sp ≠ .out ∧ i < s.size sp ∧ sp' = sp ∧ j = i then b else (s.buf sp').read j) ∧
      { t with inBuf := s.inBuf, kmBuf := s.kmBuf, ivBuf := s.ivBuf, refBuf := s.refBuf } = s

/-- 20_memory.md R63: the byte returned, the same again when read twice, no change of the core; and what a read of OUT
returns above `OUT_LEN` and outside phase DONE, by the invariant. -/
def Obligations.HostReadBuffer : Prop :=
  ∀ (s : State) (sp : Space) (i : Nat), ∃ t u v,
    perform (.hostReadBuf sp i) s = .next t ∧ t.replies = .byte sp i v :: s.replies ∧
    { t with replies := s.replies } = s ∧
    perform (.hostReadBuf sp i) t = .next u ∧ u.replies = .byte sp i v :: t.replies ∧
    v = (if i < s.size sp then (s.buf sp).read i else 0) ∧
    (s.Inv → sp = .out → (s.outLen.toNat ≤ i ∨ s.phase ≠ .done) → v = 0)

/-- 30_encoding.md section 3 and 20_memory.md section 3: the `LOAD` pseudo-step leaves the sequence at indices 0 upward,
every other byte of every buffer as it was, and its length in the matching register. The steps come from the model's
schedule (notes/assumptions/1.md). -/
def Obligations.LoadPlacesTheSequence : Prop :=
  ∀ (s : State) (sp : Space) (bytes : List Byte) (l : List AgentStep),
    s.Inv → s.phase ≠ .busy → sp ≠ .out → bytes.length ≤ s.size sp →
    s.schedule = Script.load sp bytes ++ l →
    ∃ t : State, core.run (bytes.length + 1) s = .next t ∧ t.schedule = l ∧
      (t.readReg sp.lenReg.number).toNat = bytes.length ∧
      (∀ sp' j, (t.buf sp').read j =
        if sp' = sp ∧ j < bytes.length then bytes.getD j 0 else (s.buf sp').read j) ∧
      s.KeepsResults t

/-! ## START, CLEAR, Reset, phases -/

/-- 44_control_ops.md R220. -/
def Obligations.StartClearsResults : Prop :=
  ∀ (s : State) (w : Word), s.phase ≠ .busy → w ≠ 0x00000003 →
    ∃ t, perform (.hostWriteReg 0 w) s = .next t ∧
      t.lastCmd = w ∧ t.err = .none ∧ t.vres = .none ∧ t.outLen = 0 ∧ (∀ i, t.outBuf.read i = 0) ∧
      t.mismatchAt = 0 ∧ t.mismatchInfo.word = 0 ∧ t.phase = .busy ∧
      t.inLen = s.inLen ∧ t.kmLen = s.kmLen ∧ t.ivLen = s.ivLen ∧ t.refLen = s.refLen ∧ t.cap = s.cap ∧
      (∀ sp, sp ≠ .out → ∀ a, (t.buf sp).read a = (s.buf sp).read a) ∧
      t.schedule = s.schedule ∧ t.replies = s.replies

/-- 44_control_ops.md R222: `CLEAR` in phase IDLE or DONE leaves the reset state at once, in the host write itself; in
phase BUSY it is ignored; the word `0x00000103` is not `CLEAR`. That the schedule and the replies stay as they are is
the model's choice (notes/assumptions/17.md). -/
def Obligations.ClearReturnsToReset : Prop :=
  (∀ s : State, perform (.hostWriteReg 0 0x00000003) s = exec .clear s) ∧
  (∀ s : State, s.phase ≠ .busy → perform (.hostWriteReg 0 0x00000103) s = .next (s.start 0x00000103)) ∧
  (∀ s : State, s.phase ≠ .busy → ∃ t, exec .clear s = .next t ∧ t.IsReset ∧
    t.cap = s.cap ∧ t.schedule = s.schedule ∧ t.replies = s.replies) ∧
  ∀ s : State, s.phase = .busy → exec .clear s = .next s

/-- 70_reset_and_hazards.md R280: every piece of state after `Reset`, whatever it held; STATUS, `done` and register
`CAP` as they read then; and the same state as after `CLEAR`. -/
def Obligations.ResetZeroesEverything : Prop :=
  (∀ cap : Word, (State.resetWith cap).IsReset) ∧ State.reset.IsReset ∧
  ∀ s : State, ∃ t, perform .reset s = .next t ∧ t.IsReset ∧
    t.readReg 1 = 0x00000000 ∧ t.doneLine = false ∧ t.readReg 10 = s.cap ∧
    (s.phase ≠ .busy → exec .clear s = .next t)

/-- From 70_reset_and_hazards.md R281 and 44_control_ops.md R221: `Reset` in phase BUSY ends the command, and no
completion follows for it. An engine step outside phase BUSY, which the spec does not enable, is in the model one that
changes nothing (its choice, notes/assumptions/3.md); the last clause rests on that. -/
def Obligations.ResetAbandonsTheCommand : Prop :=
  ∀ s : State, s.phase = .busy → ∃ t, perform .reset s = .next t ∧ t.IsReset ∧ perform .engineComplete t = .next t

/-- 44_control_ops.md R226: all the transitions of `PHASE`. -/
def Obligations.PhaseMachine : Prop :=
  ∀ (s t : State) (a : AgentStep), perform a s = .next t →
    t.phase =
      match a with
      | .reset            => .idle
      | .hostWriteReg n w => if s.phase = .busy then .busy
                             else if n = 0 then (if w = 0x00000003 then .idle else .busy)
                             else s.phase
      | .engineComplete   => if s.phase = .busy then .done else s.phase
      | .hostReadReg _    => s.phase
      | .hostWriteBuf _ _ _ => s.phase
      | .hostReadBuf _ _  => s.phase

/-- 70_reset_and_hazards.md R285: in phase BUSY every host write is ignored and host reads return the current state,
which is (by the invariant) phase BUSY, zero results, and the inputs. -/
def Obligations.BusyLocksInputs : Prop :=
  ∀ s : State, s.phase = .busy →
    (∀ n w, perform (.hostWriteReg n w) s = .next s) ∧
    (∀ sp i b, perform (.hostWriteBuf sp i b) s = .next s) ∧
    (∀ n, perform (.hostReadReg n) s = .next (s.answer (.reg n (s.readReg n)))) ∧
    (∀ sp i, perform (.hostReadBuf sp i) s = .next (s.answer (.byte sp i (s.readBuf sp i)))) ∧
    (s.Inv → s.readReg 1 = 0x00000001 ∧ s.readReg 6 = 0 ∧ s.readReg 7 = 0 ∧ s.readReg 8 = 0 ∧
      ∀ i, s.readBuf .out i = 0)

/-- 10_state.md R35: `LASTCMD` from one step to the next, and that it is the command the engine executes. -/
def Obligations.LastCommandIsLatched : Prop :=
  (∀ cap : Word, (State.resetWith cap).lastCmd = 0) ∧
  (∀ (s t : State) (a : AgentStep), perform a s = .next t →
    t.lastCmd =
      match a with
      | .reset            => 0
      | .hostWriteReg n w => if s.phase ≠ .busy ∧ n = 0 then (if w = 0x00000003 then 0 else w) else s.lastCmd
      | .engineComplete   => s.lastCmd
      | .hostReadReg _    => s.lastCmd
      | .hostWriteBuf _ _ _ => s.lastCmd
      | .hostReadBuf _ _  => s.lastCmd) ∧
  (∀ (s : State) (i : Instr), decode s.lastCmd = .ok i → i ≠ .clear → perform .engineComplete s = exec i s) ∧
  ∀ s : State, s.Inv → s.lastCmd ≠ 0x00000003

/-- From 10_state.md R34 and 44_control_ops.md R223: a START, a `CLEAR` or a reset clears all result fields;
`EngineComplete` in phase BUSY writes every one of them, with the values `Exec` returns for the latched word, so that
nothing of what they held before is left; and no other step changes one. That an engine step outside phase BUSY is
taken and changes nothing is the model's choice (notes/assumptions/3.md). -/
def Obligations.ResultFieldsAreWrittenTogether : Prop :=
  ∀ (s t : State) (a : AgentStep), perform a s = .next t →
    match a with
    | .reset            => t.resultsClear
    | .hostWriteReg n _ => if s.phase ≠ .busy ∧ n = 0 then t.resultsClear else s.KeepsResults t
    | .engineComplete   =>
        if s.phase = .busy then
          t.CompletedWith s.latchedResult ∧
          ∀ e v n out d info,
            perform .engineComplete { s with
              err := e, vres := v, outLen := n, outBuf := out, mismatchAt := d, mismatchInfo := info } = .next t
        else s.KeepsResults t
    | .hostReadReg _    => s.KeepsResults t
    | .hostWriteBuf _ _ _ => s.KeepsResults t
    | .hostReadBuf _ _  => s.KeepsResults t

/-- 10_state.md R41: the engine writes no input buffer; they change only by host writes, `CLEAR` and reset. -/
def Obligations.InputsChangeOnlyByTheHost : Prop :=
  ∀ (s t : State) (a : AgentStep), perform a s = .next t →
    a ≠ .reset → (∀ sp i b, a ≠ .hostWriteBuf sp i b) → a ≠ .hostWriteReg 0 0x00000003 →
    ∀ sp, sp ≠ .out → ∀ j, (t.buf sp).read j = (s.buf sp).read j

/-- 60_exceptions.md section 3: no error is sticky. Whatever the last command's results were, the next word written to
`CMD` in phase DONE leaves the same state. -/
def Obligations.NoErrorIsSticky : Prop :=
  ∀ (s : State) (r : Result) (w : Word), s.phase = .done →
    perform (.hostWriteReg 0 w) (s.finish r) = perform (.hostWriteReg 0 w) s

/-! ## The OTP XOR unit -/

/-- 40_otp_xor.md R110. -/
def Obligations.XorTransformBytes : Prop :=
  ∀ x k : List Byte, x.length ≤ k.length →
    (xorTransform x k).length = x.length ∧
    (∀ i, i < x.length → (xorTransform x k).getD i 0 = x.getD i 0 ^^^ k.getD i 0) ∧
    xorTransform x (k.take x.length) = xorTransform x k

/-- 40_otp_xor.md R111: the result of `XOR` for every length and content, errors in the order they are tested. -/
def Obligations.XorCommand : Prop :=
  ∀ s : State, s.phase = .busy → ∃ t, exec .xor s = .next t ∧ s.KeepsInputs t ∧
    (s.cap < s.inLen ∨ s.cap < s.kmLen → t.Failed .capacityExceeded false) ∧
    (s.inLen ≤ s.cap → s.kmLen ≤ s.cap → s.kmLen < s.inLen → t.Failed .insufficientKeyMaterial false) ∧
    (s.inLen ≤ s.cap → s.kmLen ≤ s.cap → s.inLen ≤ s.kmLen →
      t.Completed .none .none
        ((List.range s.inLen.toNat).map fun i => s.inBuf.read i ^^^ s.kmBuf.read i) 0 ⟨none, none⟩)

/-- 40_otp_xor.md R112: the result of `XOR.V`; `compareBytes` is characterised by `CompareFindsFirstDifference`. -/
def Obligations.XorVerifyCommand : Prop :=
  ∀ s : State, s.phase = .busy → ∃ t, exec .xorV s = .next t ∧ s.KeepsInputs t ∧
    (s.cap < s.inLen ∨ s.cap < s.kmLen ∨ s.cap < s.refLen → t.Failed .capacityExceeded true) ∧
    (s.inLen ≤ s.cap → s.kmLen ≤ s.cap → s.refLen ≤ s.cap → s.kmLen < s.inLen →
      t.Failed .insufficientKeyMaterial true) ∧
    (s.inLen ≤ s.cap → s.kmLen ≤ s.cap → s.refLen ≤ s.cap → s.inLen ≤ s.kmLen →
      ∀ out, out = (List.range s.inLen.toNat).map (fun i => s.inBuf.read i ^^^ s.kmBuf.read i) →
        t.Judged out (compareBytes out ((List.range s.refLen.toNat).map s.refBuf.read)))

/-- 40_otp_xor.md R115: the result is the same for every `LANES >= 1` and for every order of the groups. -/
def Obligations.LanesCannotBeObserved : Prop :=
  ∀ (lanes : Nat) (order : List Nat) (x k : List Byte), 1 ≤ lanes → x.length ≤ k.length →
    order.Perm (List.range ((x.length + lanes - 1) / lanes)) →
    xorByLanes lanes order x k = Memory.ofBytes (xorTransform x k)

/-- 40_otp_xor.md R116: the involution, of the function and of the command run twice. -/
def Obligations.XorIsAnInvolution : Prop :=
  (∀ p k : List Byte, p.length ≤ k.length → xorTransform (xorTransform p k) k = p) ∧
  ∀ s t s' t' : State, s.phase = .busy → exec .xor s = .next t → t.err = .none →
    s'.phase = .busy → s'.inLen = s.inLen → s'.kmLen = s.kmLen → s'.cap = s.cap →
    (∀ i, i < s.inLen.toNat → s'.inBuf.read i = t.outBuf.read i) →
    (∀ i, i < s.inLen.toNat → s'.kmBuf.read i = s.kmBuf.read i) →
    exec .xor s' = .next t' →
    t'.err = .none ∧ t'.outLen = s.inLen ∧ ∀ i, i < s.inLen.toNat → t'.outBuf.read i = s.inBuf.read i

/-! ## The AES-128-CBC decryption unit -/

/-- 41_aes_cbc_decrypt.md R130: the result of `CBCDEC` for every length and content, errors in the order tested;
`cbcRaw` and `unpad` are characterised by `CbcRawChainsBlocks` and `UnpadStripsPadding`. -/
def Obligations.CbcDecryptCommand : Prop :=
  ∀ s : State, s.phase = .busy → ∃ t, exec .cbcdec s = .next t ∧ s.KeepsInputs t ∧
    (s.cap < s.inLen → t.Failed .capacityExceeded false) ∧
    (s.inLen ≤ s.cap → ¬(s.kmLen = 16 ∧ s.ivLen = 16 ∧ s.inLen.toNat % 16 = 0 ∧ s.inLen ≠ 0) →
      t.Failed .invalidCipherInput false) ∧
    (s.inLen ≤ s.cap → s.kmLen = 16 → s.ivLen = 16 → s.inLen.toNat % 16 = 0 → s.inLen ≠ 0 →
      match unpad (cbcRaw ((List.range s.inLen.toNat).map s.inBuf.read) ((List.range 16).map s.kmBuf.read)
          ((List.range 16).map s.ivBuf.read)) with
      | none     => t.Failed .invalidPadding false
      | some out => t.Completed .none .none out 0 ⟨none, none⟩)

/-- 41_aes_cbc_decrypt.md R137: the result of `CBCDEC.V`. -/
def Obligations.CbcDecryptVerifyCommand : Prop :=
  ∀ s : State, s.phase = .busy → ∃ t, exec .cbcdecV s = .next t ∧ s.KeepsInputs t ∧
    (s.cap < s.inLen ∨ s.cap < s.refLen → t.Failed .capacityExceeded true) ∧
    (s.inLen ≤ s.cap → s.refLen ≤ s.cap →
      ¬(s.kmLen = 16 ∧ s.ivLen = 16 ∧ s.inLen.toNat % 16 = 0 ∧ s.inLen ≠ 0) →
      t.Failed .invalidCipherInput true) ∧
    (s.inLen ≤ s.cap → s.refLen ≤ s.cap → s.kmLen = 16 → s.ivLen = 16 → s.inLen.toNat % 16 = 0 → s.inLen ≠ 0 →
      match unpad (cbcRaw ((List.range s.inLen.toNat).map s.inBuf.read) ((List.range 16).map s.kmBuf.read)
          ((List.range 16).map s.ivBuf.read)) with
      | none     => t.Failed .invalidPadding true
      | some out => t.Judged out (compareBytes out ((List.range s.refLen.toNat).map s.refBuf.read)))

/-- 41_aes_cbc_decrypt.md R134: `P(k) = BlockDecrypt(C(k), key) ^ C(k-1)`, byte by byte, `C(0) = iv`; blocks numbered
from 0 here. -/
def Obligations.CbcRawChainsBlocks : Prop :=
  ∀ (n : Nat) (ct key iv : List Byte), ct.length = 16 * n → 1 ≤ n → key.length = 16 → iv.length = 16 →
    (cbcRaw ct key iv).length = 16 * n ∧
    ∀ k j, k < n → j < 16 →
      (cbcRaw ct key iv).getD (16 * k + j) 0 =
        (blockDecrypt (blockOf (ct.drop (16 * k))) (blockOf key)).bytes.getD j 0 ^^^
          (if k = 0 then iv.getD j 0 else ct.getD (16 * (k - 1) + j) 0)

/-- 41_aes_cbc_decrypt.md R135. -/
def Obligations.UnpadStripsPadding : Prop :=
  ∀ (n : Nat) (raw : List Byte) (p : Nat), raw.length = 16 * n → 1 ≤ n → p = (raw.getD (16 * n - 1) 0).toNat →
    ((1 ≤ p ∧ p ≤ 16 ∧ ∀ j, 1 ≤ j → j ≤ p → (raw.getD (16 * n - j) 0).toNat = p) →
      unpad raw = some (raw.take (16 * n - p))) ∧
    (¬(1 ≤ p ∧ p ≤ 16 ∧ ∀ j, 1 ≤ j → j ≤ p → (raw.getD (16 * n - j) 0).toNat = p) → unpad raw = none)

/-- 41_aes_cbc_decrypt.md section 1, the length law that R136 derives from R135: an output is 1 to 16 bytes shorter than
the input. -/
def Obligations.OutputIsShorterByThePadding : Prop :=
  ∀ (s t : State), s.phase = .busy →
    (exec .cbcdec s = .next t ∨ exec .cbcdecV s = .next t) → (t.err = .none ∨ t.err = .mismatch) →
    ∃ p, 1 ≤ p ∧ p ≤ 16 ∧ t.outLen.toNat + p = s.inLen.toNat

/-- 41_aes_cbc_decrypt.md R139: the round trip through the reference encryptor, for every message that fits, every key
and every IV. -/
def Obligations.CbcRoundTrip : Prop :=
  ∀ (s : State) (m key iv : List Byte), key.length = 16 → iv.length = 16 →
    m.length + (16 - m.length % 16) ≤ s.cap.toNat → s.phase = .busy →
    s.inLen.toNat = (cbcEncrypt m key iv).length → s.kmLen = 16 → s.ivLen = 16 →
    (∀ i, i < s.inLen.toNat → s.inBuf.read i = (cbcEncrypt m key iv).getD i 0) →
    (∀ i, i < 16 → s.kmBuf.read i = key.getD i 0) → (∀ i, i < 16 → s.ivBuf.read i = iv.getD i 0) →
    ∃ t, exec .cbcdec s = .next t ∧ t.Completed .none .none m 0 ⟨none, none⟩

/-- 42_aes128_inverse_cipher.md R176: the reference encryptor block by block, `C(k) = BlockEncrypt(x(k) ^ C(k-1), key)`
with `C(0) = iv` (blocks numbered from 0 here), without `Pad` and with it. -/
def Obligations.CbcEncryptChainsBlocks : Prop :=
  (∀ (n : Nat) (x key iv y : List Byte), x.length = 16 * n → 1 ≤ n → key.length = 16 → iv.length = 16 →
    y = cbcEncryptRaw x key iv →
    y.length = 16 * n ∧
    (∀ k, k < n → (y.drop (16 * k)).take 16 =
      (blockEncrypt
        ((blockOf (x.drop (16 * k))).xor (if k = 0 then blockOf iv else blockOf (y.drop (16 * (k - 1)))))
        (blockOf key)).bytes)) ∧
  ∀ (m key iv : List Byte) (p : Nat), p = 16 - m.length % 16 →
    cbcEncrypt m key iv = cbcEncryptRaw (m ++ List.replicate p (BitVec.ofNat 8 p)) key iv ∧
    (cbcEncrypt m key iv).length = 16 * (m.length / 16 + 1)

/-- 41_aes_cbc_decrypt.md section 2, the tamper law that R140 derives: one byte of an accepted ciphertext changed, and
`CBCDEC` fails or gives another output, and `CBCDEC.V` against the old output never passes. -/
def Obligations.TamperingNeverPasses : Prop :=
  ∀ (s s' t : State) (i : Nat) (b : Byte), s.Inv → s.phase = .busy → exec .cbcdec s = .next t → t.err = .none →
    i < s.inLen.toNat → b ≠ s.inBuf.read i → s' = { s with inBuf := s.inBuf.write i b } →
    (∃ u, exec .cbcdec s' = .next u ∧ (u.err = .invalidPadding ∨ (u.err = .none ∧ u.output ≠ t.output))) ∧
    (s.refLen = t.outLen → s.reference = t.output →
      ∃ u, exec .cbcdecV s' = .next u ∧
        ((u.vres = .error ∧ u.err = .invalidPadding) ∨ (u.vres = .fail ∧ u.err = .mismatch)))

/-- 41_aes_cbc_decrypt.md section 2, the error propagation that R141 derives: outside the block of the changed byte,
exactly the byte 16 further on changes, by the same difference; a changed IV byte changes exactly that byte of the
first block. -/
def Obligations.ErrorPropagation : Prop :=
  ∀ (n : Nat) (ct key iv : List Byte) (b : Byte), ct.length = 16 * n → key.length = 16 → iv.length = 16 →
    (∀ p q, p < 16 * n → q < 16 * n → q / 16 ≠ p / 16 →
      (cbcRaw (ct.set p b) key iv).getD q 0 =
        (cbcRaw ct key iv).getD q 0 ^^^ (if q = p + 16 then ct.getD p 0 ^^^ b else 0)) ∧
    (∀ j q, j < 16 → q < 16 * n →
      (cbcRaw ct key (iv.set j b)).getD q 0 =
        (cbcRaw ct key iv).getD q 0 ^^^ (if q = j then iv.getD j 0 ^^^ b else 0))

/-! ## AES-128 -/

/-- 42_aes128_inverse_cipher.md R162: `gmul` by the bits of its second factor, its laws, the four products of the
inverse cipher, the examples. -/
def Obligations.FieldMultiplication : Prop :=
  (∀ a b : Byte, gmul a b =
    ((List.range 8).filter fun i => b.getLsbD i).foldr (fun i acc => xtime^[i] a ^^^ acc) 0) ∧
  (∀ a b : Byte, gmul a b = gmul b a) ∧
  (∀ a b c : Byte, gmul (gmul a b) c = gmul a (gmul b c)) ∧
  (∀ a b c : Byte, gmul a (b ^^^ c) = gmul a b ^^^ gmul a c) ∧
  (∀ a : Byte, gmul a 0x01 = a ∧ gmul a 0x00 = 0x00) ∧
  (∀ a x2 x4 x8 : Byte, x2 = xtime a → x4 = xtime x2 → x8 = xtime x4 →
    gmul 0x09 a = x8 ^^^ a ∧ gmul 0x0B a = x8 ^^^ x2 ^^^ a ∧ gmul 0x0D a = x8 ^^^ x4 ^^^ a ∧
    gmul 0x0E a = x8 ^^^ x4 ^^^ x2) ∧
  gmul 0x57 0x83 = 0xC1 ∧ gmul 0x57 0x13 = 0xFE ∧
  [0x09, 0x0B, 0x0D, 0x0E].map (fun c => gmul c 0x57) = [0xD9, 0x77, 0x9E, 0x67] ∧
  [0x09, 0x0B, 0x0D, 0x0E].map (fun c => gmul c 0x80) = [0xEC, 0xF7, 0xDA, 0x41] ∧
  [0x09, 0x0B, 0x0D, 0x0E].map (fun c => gmul c 0xFF) = [0x46, 0xA3, 0x97, 0x8D]

/-- 42_aes128_inverse_cipher.md R163: the table is the affine map of the multiplicative inverse, and a permutation with
no fixed point. -/
def Obligations.SboxIsTheAffineInverse : Prop :=
  (∀ a : Byte, ∃ b : Byte, (a = 0 ∧ b = 0) ∨ (a ≠ 0 ∧ gmul a b = 0x01)) ∧
  (∀ a b : Byte, (a = 0 ∧ b = 0) ∨ (a ≠ 0 ∧ gmul a b = 0x01) →
    sbox a = b ^^^ b.rotateLeft 1 ^^^ b.rotateLeft 2 ^^^ b.rotateLeft 3 ^^^ b.rotateLeft 4 ^^^ 0x63) ∧
  (∀ a a' : Byte, sbox a = sbox a' → a = a') ∧ (∀ c : Byte, ∃ a, sbox a = c) ∧ (∀ a : Byte, sbox a ≠ a) ∧
  sbox 0x53 = 0xED ∧ gmul 0x01 0x01 = 0x01 ∧ gmul 0x02 0x8D = 0x01 ∧ gmul 0x03 0xF6 = 0x01 ∧
  gmul 0x53 0xCA = 0x01 ∧ gmul 0xFF 0x1C = 0x01

/-- 42_aes128_inverse_cipher.md R164. -/
def Obligations.InvSboxIsTheInverse : Prop :=
  (∀ a : Byte, invSbox (sbox a) = a ∧ sbox (invSbox a) = a) ∧
  invSbox 0x63 = 0x00 ∧ invSbox 0x00 = 0x52 ∧ invSbox 0xED = 0x53

/-- 42_aes128_inverse_cipher.md R165 and R166: the round constants, the 44 words, and the 11 round keys made of them. -/
def Obligations.KeyExpansionRecurrence : Prop :=
  (rcon 1 = 0x01 ∧ ∀ i, 1 ≤ i → i < 10 → rcon (i + 1) = xtime (rcon i)) ∧
  ∀ key : List Byte, key.length = 16 →
    (keyExpansion (blockOf key)).length = 11 ∧
    (∀ i, i < 4 → keyWord (blockOf key) i =
      ⟨key.getD (4 * i) 0, key.getD (4 * i + 1) 0, key.getD (4 * i + 2) 0, key.getD (4 * i + 3) 0⟩) ∧
    (∀ i, 4 ≤ i → i < 44 → ∀ t, t = keyWord (blockOf key) (i - 1) →
      keyWord (blockOf key) i =
        (keyWord (blockOf key) (i - 4)).xor
          (if i % 4 = 0 then
            ⟨sbox t.b1 ^^^ rcon (i / 4), sbox t.b2, sbox t.b3, sbox t.b0⟩
          else t)) ∧
    (∀ r, r ≤ 10 → (roundKey (keyExpansion (blockOf key)) r).bytes =
      (keyWord (blockOf key) (4 * r)).bytes ++ (keyWord (blockOf key) (4 * r + 1)).bytes ++
        (keyWord (blockOf key) (4 * r + 2)).bytes ++ (keyWord (blockOf key) (4 * r + 3)).bytes) ∧
    roundKey (keyExpansion (blockOf key)) 0 = blockOf key ∧
    (key = [0, 1, 2, 3, 4, 5, 6, 7, 8, 9, 10, 11, 12, 13, 14, 15] →
      keyWord (blockOf key) 4 = ⟨0xd6, 0xaa, 0x74, 0xfd⟩ ∧
      (roundKey (keyExpansion (blockOf key)) 1).bytes = [0xd6, 0xaa, 0x74, 0xfd, 0xd2, 0xaf, 0x72, 0xfa,
        0xda, 0xa6, 0x78, 0xf1, 0xd6, 0xab, 0x76, 0xfe] ∧
      (roundKey (keyExpansion (blockOf key)) 10).bytes = [0x13, 0x11, 0x1d, 0x7f, 0xe3, 0x94, 0x4a, 0x17,
        0xf3, 0x07, 0xa7, 0x8b, 0x4d, 0x2b, 0x30, 0xc5])

/-- 42_aes128_inverse_cipher.md R168: the table of sources, the inverse of ShiftRows and its example; and that it
commutes with `InvSubBytes`. -/
def Obligations.InvShiftRowsMovesBytes : Prop :=
  (∀ (b : List Byte) (j : Nat), b.length = 16 → j < 16 →
    (invShiftRows (blockOf b)).bytes.getD j 0 =
      b.getD ([0, 13, 10, 7, 4, 1, 14, 11, 8, 5, 2, 15, 12, 9, 6, 3].getD j 0) 0) ∧
  (∀ b : Block, invShiftRows (shiftRows b) = b ∧ shiftRows (invShiftRows b) = b) ∧
  (∀ b : Block, invSubBytes (invShiftRows b) = invShiftRows (invSubBytes b)) ∧
  (shiftRows (blockOf [0, 1, 2, 3, 4, 5, 6, 7, 8, 9, 10, 11, 12, 13, 14, 15])).bytes =
    [0, 5, 10, 15, 4, 9, 14, 3, 8, 13, 2, 7, 12, 1, 6, 11]

/-- 42_aes128_inverse_cipher.md R170: the matrix, column by column; linear over `^`, an all-equal column unchanged,
the example column, and the inverse of MixColumns. -/
def Obligations.InvMixColumnsIsLinearInverse : Prop :=
  (∀ (b : Block) (c : Nat) (s : Column), c < 4 → s = b.column c →
    (invMixColumns b).column c =
      ⟨gmul 0x0E s.b0 ^^^ gmul 0x0B s.b1 ^^^ gmul 0x0D s.b2 ^^^ gmul 0x09 s.b3,
       gmul 0x09 s.b0 ^^^ gmul 0x0E s.b1 ^^^ gmul 0x0B s.b2 ^^^ gmul 0x0D s.b3,
       gmul 0x0D s.b0 ^^^ gmul 0x09 s.b1 ^^^ gmul 0x0E s.b2 ^^^ gmul 0x0B s.b3,
       gmul 0x0B s.b0 ^^^ gmul 0x0D s.b1 ^^^ gmul 0x09 s.b2 ^^^ gmul 0x0E s.b3⟩) ∧
  (∀ x y : Block, invMixColumns (x.xor y) = (invMixColumns x).xor (invMixColumns y)) ∧
  (∀ a : Byte, invMixColumn ⟨a, a, a, a⟩ = ⟨a, a, a, a⟩) ∧
  invMixColumn ⟨0x8e, 0x4d, 0xa1, 0xbc⟩ = ⟨0xdb, 0x13, 0x53, 0x45⟩ ∧
  mixColumn ⟨0xdb, 0x13, 0x53, 0x45⟩ = ⟨0x8e, 0x4d, 0xa1, 0xbc⟩ ∧
  (∀ b : Block, invMixColumns (mixColumns b) = b ∧ mixColumns (invMixColumns b) = b)

/-- 42_aes128_inverse_cipher.md R171: `BlockDecrypt` round by round (`st r` is the cipher state after the round that uses
round key `r`), and its worked example; R167 and R169: `AddRoundKey` and `InvSubBytes` byte by byte; R174:
`BlockDecrypt` and `BlockEncrypt` are inverse to each other, for every key, and each of the four transformations is a
bijection. -/
def Obligations.BlockDecryptIsABijection : Prop :=
  (∀ p c key : Block, blockDecrypt (blockEncrypt p key) key = p ∧ blockEncrypt (blockDecrypt c key) key = c) ∧
  (∀ key : Block, Function.Bijective fun c => blockDecrypt c key) ∧
  (∀ b k : Block, addRoundKey (addRoundKey b k) k = b) ∧
  Function.Bijective invShiftRows ∧ Function.Bijective invSubBytes ∧ Function.Bijective invMixColumns ∧
  (∀ c key : Block, ∃ st : Nat → Block,
    st 10 = addRoundKey c (roundKey (keyExpansion key) 10) ∧
    (∀ r, 1 ≤ r → r ≤ 9 → st r =
      invMixColumns (addRoundKey (invSubBytes (invShiftRows (st (r + 1)))) (roundKey (keyExpansion key) r))) ∧
    blockDecrypt c key = addRoundKey (invSubBytes (invShiftRows (st 1))) (roundKey (keyExpansion key) 0)) ∧
  (∀ (b k : Block) (j : Nat), j < 16 →
    (addRoundKey b k).bytes.getD j 0 = b.bytes.getD j 0 ^^^ k.bytes.getD j 0 ∧
    (invSubBytes b).bytes.getD j 0 = invSbox (b.bytes.getD j 0)) ∧
  (∀ b : Block, invSubBytes (invShiftRows b) = invShiftRows (invSubBytes b)) ∧
  (blockDecrypt
      (blockOf [0x69, 0xc4, 0xe0, 0xd8, 0x6a, 0x7b, 0x04, 0x30, 0xd8, 0xcd, 0xb7, 0x80, 0x70, 0xb4, 0xc5, 0x5a])
      (blockOf [0, 1, 2, 3, 4, 5, 6, 7, 8, 9, 10, 11, 12, 13, 14, 15])).bytes =
    [0x00, 0x11, 0x22, 0x33, 0x44, 0x55, 0x66, 0x77, 0x88, 0x99, 0xaa, 0xbb, 0xcc, 0xdd, 0xee, 0xff]

/-- 42_aes128_inverse_cipher.md section 6, the permitted form of R172: the "equivalent inverse cipher" computes the same
function. -/
def Obligations.EquivalentInverseCipher : Prop :=
  ∀ c key : Block, equivalentDecrypt c key = blockDecrypt c key

/-! ## The comparator -/

/-- 43_verify_compare.md R203. -/
def Obligations.CompareFindsFirstDifference : Prop :=
  ∀ actual expected : List Byte,
    (compareBytes actual expected = .pass ↔ actual = expected) ∧
    (∀ d, d < min actual.length expected.length → actual.getD d 0 ≠ expected.getD d 0 →
      (∀ i, i < d → actual.getD i 0 = expected.getD i 0) →
      compareBytes actual expected = .fail d (some (expected.getD d 0)) (some (actual.getD d 0))) ∧
    (actual.length < expected.length → (∀ i, i < actual.length → actual.getD i 0 = expected.getD i 0) →
      compareBytes actual expected = .fail actual.length (some (expected.getD actual.length 0)) none) ∧
    (expected.length < actual.length → (∀ i, i < expected.length → actual.getD i 0 = expected.getD i 0) →
      compareBytes actual expected = .fail expected.length none (some (actual.getD expected.length 0)))

/-- 43_verify_compare.md R204: what the comparator writes beside the output of the same command with `V == 0`, which
stays whole; after an engine error there is no comparison. -/
def Obligations.ComparatorWrites : Prop :=
  ∀ (s t u : State), s.phase = .busy → s.refLen ≤ s.cap →
    ((exec .xor s = .next u ∧ exec .xorV s = .next t) ∨ (exec .cbcdec s = .next u ∧ exec .cbcdecV s = .next t)) →
    t.outLen = u.outLen ∧ t.outBuf = u.outBuf ∧
    (u.err ≠ .none → t.vres = .error ∧ t.err = u.err ∧ t.readReg 7 = 0 ∧ t.readReg 8 = 0) ∧
    (u.err = .none →
      match compareBytes u.output s.reference with
      | .pass => t.vres = .pass ∧ t.err = .none ∧ t.readReg 7 = 0 ∧ t.readReg 8 = 0
      | .fail d e a => t.vres = .fail ∧ t.err = .mismatch ∧ (t.readReg 7).toNat = d ∧
          t.readReg 8 = (e.getD 0).setWidth 32 ||| ((a.getD 0).setWidth 32 <<< 8) |||
            ((if e.isSome then 1 else 0) <<< 16) ||| ((if a.isSome then 1 else 0) <<< 17))

/-! ## Errors -/

/-- 60_exceptions.md R242 (and 44_control_ops.md R223 for the word of `CLEAR`, which cannot be latched). -/
def Obligations.ReservedWordCompletes : Prop :=
  ∀ s : State, s.phase = .busy →
    s.lastCmd ≠ 0x00000001 → s.lastCmd ≠ 0x00000101 → s.lastCmd ≠ 0x00000002 → s.lastCmd ≠ 0x00000102 →
    ∃ t, perform .engineComplete s = .next t ∧ t.Failed .invalidCommand false ∧ s.KeepsInputs t

/-- 60_exceptions.md R243: exactly when `CapacityExceeded` is raised, and what it leaves. -/
def Obligations.CapacityCheck : Prop :=
  ∀ (s : State) (i : Instr), s.phase = .busy → decode s.lastCmd = .ok i → i ≠ .clear →
    ∃ t, perform .engineComplete s = .next t ∧
      (t.err = .capacityExceeded ↔
        s.cap < s.inLen ∨ ((i = .xor ∨ i = .xorV) ∧ s.cap < s.kmLen) ∨
          ((i = .xorV ∨ i = .cbcdecV) ∧ s.cap < s.refLen)) ∧
      (t.err = .capacityExceeded → t.Failed .capacityExceeded (decide (i = .xorV ∨ i = .cbcdecV)))

/-- 60_exceptions.md R244: the cause of `InsufficientKeyMaterial`, and that `CBCDEC` never raises it. -/
def Obligations.InsufficientKeyMaterialCause : Prop :=
  ∀ s : State, s.phase = .busy →
    (∃ t, exec .xor s = .next t ∧
      (t.err = .insufficientKeyMaterial ↔ s.inLen ≤ s.cap ∧ s.kmLen ≤ s.cap ∧ s.kmLen < s.inLen)) ∧
    (∃ t, exec .xorV s = .next t ∧
      (t.err = .insufficientKeyMaterial ↔
        s.inLen ≤ s.cap ∧ s.kmLen ≤ s.cap ∧ s.refLen ≤ s.cap ∧ s.kmLen < s.inLen)) ∧
    (∃ t, exec .cbcdec s = .next t ∧ t.err ≠ .insufficientKeyMaterial) ∧
    (∃ t, exec .cbcdecV s = .next t ∧ t.err ≠ .insufficientKeyMaterial)

/-- 60_exceptions.md R245: the causes of `InvalidCipherInput` and `InvalidPadding`, that the second needs the first's
absence, and that `XOR` raises neither. -/
def Obligations.CipherInputAndPaddingCauses : Prop :=
  ∀ s : State, s.phase = .busy →
    (∃ t, exec .cbcdec s = .next t ∧
      (t.err = .invalidCipherInput ↔ s.inLen ≤ s.cap ∧
        (s.kmLen ≠ 16 ∨ s.ivLen ≠ 16 ∨ s.inLen = 0 ∨ s.inLen.toNat % 16 ≠ 0)) ∧
      (t.err = .invalidPadding ↔ s.inLen ≤ s.cap ∧
        ¬(s.kmLen ≠ 16 ∨ s.ivLen ≠ 16 ∨ s.inLen = 0 ∨ s.inLen.toNat % 16 ≠ 0) ∧
        unpad (cbcRaw s.input s.key s.ivBytes) = none)) ∧
    (∃ t, exec .cbcdecV s = .next t ∧
      (t.err = .invalidCipherInput ↔ s.inLen ≤ s.cap ∧ s.refLen ≤ s.cap ∧
        (s.kmLen ≠ 16 ∨ s.ivLen ≠ 16 ∨ s.inLen = 0 ∨ s.inLen.toNat % 16 ≠ 0)) ∧
      (t.err = .invalidPadding ↔ s.inLen ≤ s.cap ∧ s.refLen ≤ s.cap ∧
        ¬(s.kmLen ≠ 16 ∨ s.ivLen ≠ 16 ∨ s.inLen = 0 ∨ s.inLen.toNat % 16 ≠ 0) ∧
        unpad (cbcRaw s.input s.key s.ivBytes) = none)) ∧
    (∃ t, exec .xor s = .next t ∧ t.err ≠ .invalidCipherInput ∧ t.err ≠ .invalidPadding) ∧
    (∃ t, exec .xorV s = .next t ∧ t.err ≠ .invalidCipherInput ∧ t.err ≠ .invalidPadding)

/-- 60_exceptions.md R246: what a command that ends with an error leaves; with `Mismatch` the whole output of the engine
that ran, and what the comparison of it found. -/
def Obligations.ErrorLeavesNoOutput : Prop :=
  ∀ s t : State, s.phase = .busy → perform .engineComplete s = .next t →
    s.KeepsInputs t ∧
    (t.err ≠ .none → t.err ≠ .mismatch →
      t.Failed t.err (decide (decode s.lastCmd = .ok .xorV ∨ decode s.lastCmd = .ok .cbcdecV))) ∧
    (t.err = .mismatch → ∃ out d e a, t.Completed .mismatch .fail out d ⟨e, a⟩ ∧
      compareBytes out s.reference = .fail d e a ∧
      ((s.lastCmd = 0x00000101 ∧ out = xorTransform s.input s.pad) ∨
        (s.lastCmd = 0x00000102 ∧ unpad (cbcRaw s.input s.key s.ivBytes) = some out)))

/-- 60_exceptions.md R247: only the first cause in the order given is reported. -/
def Obligations.ErrorPriority : Prop :=
  ∀ s : State, s.phase = .busy →
    ∃ t, perform .engineComplete s = .next t ∧
      ∀ isXor verify : Bool,
        isXor = decide (s.lastCmd = 0x00000001 ∨ s.lastCmd = 0x00000101) →
        verify = decide (s.lastCmd = 0x00000101 ∨ s.lastCmd = 0x00000102) →
        t.err =
          if s.lastCmd ≠ 0x00000001 ∧ s.lastCmd ≠ 0x00000101 ∧ s.lastCmd ≠ 0x00000002 ∧ s.lastCmd ≠ 0x00000102 then
            .invalidCommand
          else if s.cap < s.inLen ∨ (isXor ∧ s.cap < s.kmLen) ∨ (verify ∧ s.cap < s.refLen) then .capacityExceeded
          else if isXor ∧ s.kmLen < s.inLen then .insufficientKeyMaterial
          else if ¬isXor ∧ (s.kmLen ≠ 16 ∨ s.ivLen ≠ 16 ∨ s.inLen = 0 ∨ s.inLen.toNat % 16 ≠ 0) then
            .invalidCipherInput
          else if ¬isXor ∧ unpad (cbcRaw s.input s.key s.ivBytes) = none then .invalidPadding
          else if verify ∧
            (if isXor then xorTransform s.input s.pad
              else (unpad (cbcRaw s.input s.key s.ivBytes)).getD []) ≠ s.reference then .mismatch
          else .none

/-! ## The whole machine -/

/-- 43_verify_compare.md, the table of R206: the fourteen STATUS words that can be read in a state that meets the
invariant. -/
def Obligations.LegalStatusWords : Prop :=
  ∀ s : State, s.Inv →
    s.readReg 1 ∈ ([0x00000000, 0x00000001, 0x00000002, 0x00000012, 0x00000022, 0x00000032, 0x00000052, 0x00000062,
      0x00000006, 0x0000004A, 0x0000001E, 0x0000002E, 0x0000003E, 0x0000006E] : List Word) ∧
    (s.phase = .idle → s.readReg 1 = 0x00000000) ∧ (s.phase = .busy → s.readReg 1 = 0x00000001)

/-- The invariant holds after reset, for every legal `CAP` (10_state.md section 7, 70_reset_and_hazards.md section 1);
the second clause rests on the model's own `CAP` (notes/assumptions/5.md). -/
def Obligations.ResetMeetsInvariant : Prop :=
  (∀ cap : Word, 16 ≤ cap → (State.resetWith cap).Inv) ∧ State.reset.Inv

/-- Every step keeps the invariant (10_state.md section 7, R55): from every state that meets it, whatever is scheduled. -/
def Obligations.StepKeepsInvariant : Prop :=
  ∀ s t : State, s.Inv → step s = .next t → t.Inv

/-- From 10_state.md R50, 40_otp_xor.md R115 and 70_reset_and_hazards.md R285: the result of a command depends on
`LASTCMD`, the length registers, `CAP` and the input bytes below the lengths it uses, as they stand in the state its
START left, and on nothing else: not on the other bytes, the results of earlier commands or OUT; not on `LATENCY`, which
in the model is the host's steps scheduled before the engine's, whatever these are; nor on `LANES`, which in the model
is an argument of `xorByLanes` (both readings are the model's choice, notes/assumptions/8.md, 1.md). -/
def Obligations.NoHiddenState : Prop :=
  ∀ s s' t : State, s.phase = .busy → s'.phase = .busy → s'.lastCmd = s.lastCmd → s'.cap = s.cap →
    s'.inLen = s.inLen → s'.kmLen = s.kmLen → s'.ivLen = s.ivLen → s'.refLen = s.refLen →
    s.inBuf.agree s.inLen.toNat s'.inBuf →
    s.kmBuf.agree (max s.inLen.toNat 16) s'.kmBuf →
    s.ivBuf.agree 16 s'.ivBuf →
    s.refBuf.agree s.refLen.toNat s'.refBuf →
    perform .engineComplete s = .next t →
    (∃ t', perform .engineComplete s' = .next t' ∧ t.KeepsResults t') ∧
    (∀ l l' : List AgentStep, (∀ a ∈ l, a ≠ .reset ∧ a ≠ .engineComplete) →
      s'.schedule = l ++ .engineComplete :: l' →
      ∃ u : State, core.run (l.length + 1) s' = .next u ∧ t.KeepsResults u ∧ u.schedule = l') ∧
    ∀ (lanes : Nat) (order : List Nat), (s.lastCmd = 0x00000001 ∨ s.lastCmd = 0x00000101) →
      (t.err = .none ∨ t.err = .mismatch) → 1 ≤ lanes →
      order.Perm (List.range ((s.inLen.toNat + lanes - 1) / lanes)) →
      t.outBuf = xorByLanes lanes order s.input s.pad
end

