-- ==== Sys2Proof/Laws/Decode.lean ====
section
/-! SUPPORT. A command word and its fields are the same data, and a decoded command has the fields of its word. -/

namespace Sys2Proof

/-- No bit of a word is dropped by its fields (30_encoding.md R91). -/
@[simp] theorem Fields.word_ofWord (w : Word) : (Fields.ofWord w).word = w := by
  apply BitVec.eq_of_getLsbD_eq
  intro i hi
  simp only [Fields.word, Fields.ofWord, BitVec.getLsbD_or, BitVec.getLsbD_setWidth, BitVec.getLsbD_shiftLeft,
    BitVec.getLsbD_extractLsb', BitVec.getLsbD_ofBool]
  rcases Nat.lt_trichotomy i 8 with h | rfl | h
  · simp [h, hi, show i < 9 by omega]
  · simp
  · obtain ⟨k, rfl⟩ : ∃ k, i = 9 + k := ⟨i - 9, by omega⟩
    simp [hi, show ¬ 9 + k < 8 by omega, show 9 + k - 8 ≠ 0 by omega, show k < 23 by omega, show k < 32 by omega]

/-- A decoded command has exactly the fields of its word. -/
theorem fields_of_decode {w : Word} {i : Instr} (h : decode w = .ok i) : Fields.ofWord w = i.fields := by
  rcases hf : Fields.ofWord w with ⟨op, v, rsv⟩
  simp only [decode, hf, Fields.check] at h
  by_cases h0 : rsv = 0
  · by_cases h1 : op = 1
    · subst h0 h1; cases v <;> simp at h <;> subst h <;> rfl
    · by_cases h2 : op = 2
      · subst h0 h2; cases v <;> simp at h <;> subst h <;> rfl
      · by_cases h3 : op = 3
        · subst h0 h3; cases v <;> simp at h; subst h; rfl
        · simp only [ne_eq, h0, h1, h2, h3, not_true, if_false, reduceCtorEq] at h
  · simp only [ne_eq, h0, not_false_eq_true, if_true, reduceCtorEq] at h

/-- The one word that is `CLEAR` (44_control_ops.md R218, R222). -/
theorem decode_clear_iff {w : Word} : decode w = .ok .clear ↔ w = 0x00000003 := by
  refine ⟨fun h => ?_, fun h => by subst h; rfl⟩
  rw [← Fields.word_ofWord w, fields_of_decode h]
  rfl

end Sys2Proof
end

