-- ==== Sys2Proof/Laws/Memory.lean ====
section
/-! SUPPORT. The laws of one buffer space: what each operation reads as afterwards, and that each keeps the canonical
form. -/

namespace Sys2Proof.Machine

@[simp] theorem Memory.read_nil (a : Nat) : Memory.read [] a = 0 := rfl

theorem Memory.read_cons (c : Host.Cell) (m : Memory) (a : Nat) :
    Memory.read (c :: m) a = if c.1 = a then c.2 else Memory.read m a := rfl

/-- An index that no entry names reads 0x00. -/
theorem Memory.read_of_not_listed {m : Memory} {a : Nat} (h : ∀ c ∈ m, c.1 ≠ a) : m.read a = 0 := by
  induction m with
  | nil => rfl
  | cons c m ih =>
    rw [Memory.read_cons, if_neg (h c (by simp)), ih fun d hd => h d (by simp [hd])]

theorem Memory.read_of_endsBy {m : Memory} {n a : Nat} (h : m.endsBy n) (ha : n ≤ a) : m.read a = 0 :=
  Memory.read_of_not_listed fun c hc => by have := h c hc; omega

theorem Memory.wf_nil : Memory.wf [] := by simp [Memory.wf]

theorem Memory.wf_cons {c : Host.Cell} {m : Memory} :
    Memory.wf (c :: m) ↔ (∀ d ∈ m, c.1 < d.1) ∧ c.2 ≠ 0 ∧ m.wf := by
  simp only [Memory.wf, List.pairwise_cons, List.forall_mem_cons]
  tauto

/-- The entries of a buffer after a write: the one written, and old ones at other indices. -/
theorem Memory.mem_write {m : Memory} {a : Nat} {b : Byte} {c : Host.Cell} (h : c ∈ m.write a b) :
    c = (a, b) ∨ c ∈ m := by
  induction m with
  | nil => unfold Memory.write at h; split at h <;> simp_all
  | cons d m ih =>
    unfold Memory.write at h
    split at h
    · split at h
      · exact .inr h
      · exact List.mem_cons.1 h
    · split at h
      · split at h
        · exact .inr (List.mem_cons_of_mem _ h)
        · exact (List.mem_cons.1 h).imp_right (List.mem_cons_of_mem _)
      · rcases List.mem_cons.1 h with h | h
        · simp [h]
        · exact (ih h).imp_right (List.mem_cons_of_mem _)

/-- A write keeps the canonical form. -/
theorem Memory.write_wf {m : Memory} (h : m.wf) (a : Nat) (b : Byte) : (m.write a b).wf := by
  induction m with
  | nil => unfold Memory.write; split <;> simp_all [Memory.wf]
  | cons c m ih =>
    obtain ⟨hlt, hb, hm⟩ := Memory.wf_cons.1 h
    unfold Memory.write
    split
    · split
      · exact h
      · refine Memory.wf_cons.2 ⟨fun d hd => ?_, by assumption, h⟩
        rcases List.mem_cons.1 hd with rfl | hd
        · assumption
        · exact lt_trans ‹_› (hlt d hd)
    · split
      · split
        · exact hm
        · exact Memory.wf_cons.2 ⟨fun d hd => by subst_vars; exact hlt d hd, by assumption, hm⟩
      · refine Memory.wf_cons.2 ⟨fun d hd => ?_, hb, ih hm⟩
        rcases Memory.mem_write hd with rfl | hd
        · simp; omega
        · exact hlt d hd

/-- A write inside a bound keeps the bound. -/
theorem Memory.write_endsBy {m : Memory} {n a : Nat} (h : m.endsBy n) (ha : a < n) (b : Byte) :
    (m.write a b).endsBy n := fun c hc => by
  rcases Memory.mem_write hc with rfl | hc
  · exact ha
  · exact h c hc

/-- A byte read after a write: the one written at its index, the old one elsewhere. -/
theorem Memory.read_write {m : Memory} (h : m.wf) (a : Nat) (b : Byte) (i : Nat) :
    (m.write a b).read i = if i = a then b else m.read i := by
  induction m with
  | nil =>
    unfold Memory.write
    split
    · simp_all
    · simp only [Memory.read_cons, Memory.read_nil]
      by_cases hi : i = a
      · rw [if_pos hi, if_pos hi.symm]
      · rw [if_neg hi, if_neg (Ne.symm hi)]
  | cons c m ih =>
    obtain ⟨hlt, -, hm⟩ := Memory.wf_cons.1 h
    unfold Memory.write
    have low : ∀ j, j ≤ c.1 → Memory.read m j = 0 := fun j hj =>
      Memory.read_of_not_listed fun d hd => by have := hlt d hd; omega
    by_cases hi : i = a
    · subst hi
      split
      · split
        · rw [Memory.read_cons, if_neg (by omega), low i (by omega)]; simp_all
        · simp [Memory.read_cons]
      · split
        · subst_vars
          split
          · rw [low _ le_rfl]; simp_all
          · simp [Memory.read_cons]
        · rw [Memory.read_cons, if_neg (by omega), ih hm, if_pos rfl, if_pos rfl]
    · simp only [hi, if_false]
      split
      · split
        · rfl
        · rw [Memory.read_cons, if_neg (by simpa using Ne.symm hi)]
      · split
        · subst_vars
          split
          · rw [Memory.read_cons, if_neg (Ne.symm hi)]
          · rw [Memory.read_cons, Memory.read_cons, if_neg (Ne.symm hi), if_neg (Ne.symm hi)]
        · rw [Memory.read_cons, Memory.read_cons, ih hm, if_neg hi]

/-! ## A byte sequence put into a buffer -/

theorem Memory.mem_ofBytesFrom {bs : List Byte} {a : Nat} {c : Host.Cell} (h : c ∈ Memory.ofBytesFrom a bs) :
    a ≤ c.1 ∧ c.1 < a + bs.length ∧ c.2 ≠ 0 := by
  induction bs generalizing a with
  | nil => simp [Memory.ofBytesFrom] at h
  | cons b bs ih =>
    unfold Memory.ofBytesFrom at h
    split at h
    · obtain ⟨h1, h2, h3⟩ := ih h
      exact ⟨by omega, by simp only [List.length_cons]; omega, h3⟩
    · rcases List.mem_cons.1 h with rfl | h
      · simp_all
      · obtain ⟨h1, h2, h3⟩ := ih h
        exact ⟨by omega, by simp only [List.length_cons]; omega, h3⟩

theorem Memory.ofBytesFrom_wf (a : Nat) (bs : List Byte) : (Memory.ofBytesFrom a bs).wf := by
  induction bs generalizing a with
  | nil => exact Memory.wf_nil
  | cons b bs ih =>
    unfold Memory.ofBytesFrom
    split
    · exact ih _
    · exact Memory.wf_cons.2 ⟨fun d hd => (Memory.mem_ofBytesFrom hd).1, by assumption, ih _⟩

/-- The canonical form holds of every output. -/
theorem Memory.ofBytes_wf (bs : List Byte) : (Memory.ofBytes bs).wf := Memory.ofBytesFrom_wf 0 bs

theorem Memory.ofBytes_endsBy (bs : List Byte) : (Memory.ofBytes bs).endsBy bs.length := fun c hc => by
  have := (Memory.mem_ofBytesFrom hc).2.1; omega

theorem Memory.read_ofBytesFrom (a : Nat) (bs : List Byte) (i : Nat) :
    (Memory.ofBytesFrom a bs).read i = if a ≤ i then bs.getD (i - a) 0 else 0 := by
  induction bs generalizing a with
  | nil => simp [Memory.ofBytesFrom]
  | cons b bs ih =>
    unfold Memory.ofBytesFrom
    rcases Nat.lt_trichotomy a i with h | rfl | h
    · obtain ⟨k, rfl⟩ := Nat.exists_eq_add_of_lt h
      have e1 : a + k + 1 - a = k + 1 := by omega
      have e2 : a + k + 1 - (a + 1) = k := by omega
      split
      · rw [ih, if_pos (by omega), if_pos (by omega), e1, e2, List.getD_cons_succ]
      · rw [Memory.read_cons, if_neg (by simp only; omega), ih, if_pos (by omega), if_pos (by omega), e1, e2,
          List.getD_cons_succ]
    · split
      · rw [ih, if_neg (by omega)]; simp_all
      · simp [Memory.read_cons]
    · split
      · rw [ih, if_neg (by omega), if_neg (by omega)]
      · rw [Memory.read_cons, if_neg (by simp; omega), ih, if_neg (by omega), if_neg (by omega)]

/-- Each byte of a sequence at its index, 0x00 above (20_memory.md R65). -/
@[simp] theorem Memory.read_ofBytes (bs : List Byte) (i : Nat) : (Memory.ofBytes bs).read i = bs.getD i 0 := by
  simp [Memory.ofBytes, Memory.read_ofBytesFrom]

@[simp] theorem Memory.ofBytes_nil : Memory.ofBytes [] = [] := rfl

/-! ## A byte sequence read from a buffer -/

@[simp] theorem Memory.length_bytes (m : Memory) (n : Nat) : (m.bytes n).length = n := by simp [Memory.bytes]

@[simp] theorem Memory.getElem_bytes (m : Memory) (n i : Nat) (h : i < (m.bytes n).length) :
    (m.bytes n)[i] = m.read i := by simp [Memory.bytes]

theorem Memory.getD_bytes (m : Memory) {n i : Nat} (h : i < n) : (m.bytes n).getD i 0 = m.read i := by
  rw [List.getD_eq_getElem _ _ (by simpa using h)]; simp

/-- The bytes below an index depend on nothing at or above it. -/
theorem Memory.bytes_congr {m m' : Memory} {n : Nat} (h : m.agree n m') : m.bytes n = m'.bytes n := by
  simp only [Memory.bytes]
  exact List.map_congr_left fun i hi => h i (List.mem_range.1 hi)

/-- A sequence put into a buffer is read back from it. -/
theorem Memory.bytes_ofBytes (bs : List Byte) : (Memory.ofBytes bs).bytes bs.length = bs := by
  refine List.ext_getElem (by simp) fun i h _ => ?_
  simp only [Memory.length_bytes] at h
  simp [h]

/-- Two buffers in canonical form that read the same everywhere are the same data. -/
theorem Memory.ext_of_wf {m m' : Memory} (h : m.wf) (h' : m'.wf) (e : ∀ a, m.read a = m'.read a) : m = m' := by
  induction m generalizing m' with
  | nil =>
    cases m' with
    | nil => rfl
    | cons d m' =>
      have := e d.1
      simp [Memory.read_cons] at this
      exact absurd this.symm (Memory.wf_cons.1 h').2.1
  | cons c m ih =>
    obtain ⟨hlt, hc, hm⟩ := Memory.wf_cons.1 h
    cases m' with
    | nil =>
      have := e c.1
      simp [Memory.read_cons] at this
      exact absurd this hc
    | cons d m' =>
      obtain ⟨hlt', hd, hm'⟩ := Memory.wf_cons.1 h'
      have low : ∀ j, j ≤ c.1 → Memory.read m j = 0 := fun j hj =>
        Memory.read_of_not_listed fun x hx => by have := hlt x hx; omega
      have low' : ∀ j, j ≤ d.1 → Memory.read m' j = 0 := fun j hj =>
        Memory.read_of_not_listed fun x hx => by have := hlt' x hx; omega
      have hcd : c.1 = d.1 := by
        rcases Nat.lt_trichotomy c.1 d.1 with l | l | l
        · have := e c.1
          rw [Memory.read_cons, if_pos rfl, Memory.read_cons, if_neg (by omega), low' _ (by omega)] at this
          exact absurd this hc
        · exact l
        · have := e d.1
          rw [Memory.read_cons, if_neg (by omega), Memory.read_cons, if_pos rfl, low _ (by omega)] at this
          exact absurd this.symm hd
      have hv : c.2 = d.2 := by
        have := e c.1
        rwa [Memory.read_cons, if_pos rfl, Memory.read_cons, if_pos hcd.symm] at this
      obtain rfl : c = d := Prod.ext hcd hv
      refine congrArg _ (ih hm hm' fun a => ?_)
      by_cases ha : a ≤ c.1
      · rw [low a ha, low' a ha]
      · have := e a
        rwa [Memory.read_cons, if_neg (by omega), Memory.read_cons, if_neg (by omega)] at this

end Sys2Proof.Machine
end

