-- ==== Sys2Proof/Laws/State.lean ====
section
/-! SUPPORT. What each named update of the state does to each field, so that no proof unfolds a record update. -/

namespace Sys2Proof.Machine

variable (s : State)

/-! ## start -/

@[simp] theorem State.start_phase (w : Word) :
    (s.start w).phase = .busy := rfl
@[simp] theorem State.start_vres (w : Word) :
    (s.start w).vres = .none := rfl
@[simp] theorem State.start_err (w : Word) :
    (s.start w).err = .none := rfl
@[simp] theorem State.start_inLen (w : Word) :
    (s.start w).inLen = s.inLen := rfl
@[simp] theorem State.start_kmLen (w : Word) :
    (s.start w).kmLen = s.kmLen := rfl
@[simp] theorem State.start_ivLen (w : Word) :
    (s.start w).ivLen = s.ivLen := rfl
@[simp] theorem State.start_refLen (w : Word) :
    (s.start w).refLen = s.refLen := rfl
@[simp] theorem State.start_outLen (w : Word) :
    (s.start w).outLen = 0 := rfl
@[simp] theorem State.start_mismatchAt (w : Word) :
    (s.start w).mismatchAt = 0 := rfl
@[simp] theorem State.start_mismatchInfo (w : Word) :
    (s.start w).mismatchInfo = ⟨none, none⟩ := rfl
@[simp] theorem State.start_lastCmd (w : Word) :
    (s.start w).lastCmd = w := rfl
@[simp] theorem State.start_inBuf (w : Word) :
    (s.start w).inBuf = s.inBuf := rfl
@[simp] theorem State.start_kmBuf (w : Word) :
    (s.start w).kmBuf = s.kmBuf := rfl
@[simp] theorem State.start_ivBuf (w : Word) :
    (s.start w).ivBuf = s.ivBuf := rfl
@[simp] theorem State.start_refBuf (w : Word) :
    (s.start w).refBuf = s.refBuf := rfl
@[simp] theorem State.start_outBuf (w : Word) :
    (s.start w).outBuf = [] := rfl
@[simp] theorem State.start_cap (w : Word) :
    (s.start w).cap = s.cap := rfl
@[simp] theorem State.start_schedule (w : Word) :
    (s.start w).schedule = s.schedule := rfl
@[simp] theorem State.start_replies (w : Word) :
    (s.start w).replies = s.replies := rfl

/-! ## finish -/

@[simp] theorem State.finish_phase (r : Result) :
    (s.finish r).phase = .done := rfl
@[simp] theorem State.finish_vres (r : Result) :
    (s.finish r).vres = r.vres := rfl
@[simp] theorem State.finish_err (r : Result) :
    (s.finish r).err = r.err := rfl
@[simp] theorem State.finish_inLen (r : Result) :
    (s.finish r).inLen = s.inLen := rfl
@[simp] theorem State.finish_kmLen (r : Result) :
    (s.finish r).kmLen = s.kmLen := rfl
@[simp] theorem State.finish_ivLen (r : Result) :
    (s.finish r).ivLen = s.ivLen := rfl
@[simp] theorem State.finish_refLen (r : Result) :
    (s.finish r).refLen = s.refLen := rfl
@[simp] theorem State.finish_outLen (r : Result) :
    (s.finish r).outLen = BitVec.ofNat 32 r.out.length := rfl
@[simp] theorem State.finish_mismatchAt (r : Result) :
    (s.finish r).mismatchAt = r.mismatchAt := rfl
@[simp] theorem State.finish_mismatchInfo (r : Result) :
    (s.finish r).mismatchInfo = r.mismatchInfo := rfl
@[simp] theorem State.finish_lastCmd (r : Result) :
    (s.finish r).lastCmd = s.lastCmd := rfl
@[simp] theorem State.finish_inBuf (r : Result) :
    (s.finish r).inBuf = s.inBuf := rfl
@[simp] theorem State.finish_kmBuf (r : Result) :
    (s.finish r).kmBuf = s.kmBuf := rfl
@[simp] theorem State.finish_ivBuf (r : Result) :
    (s.finish r).ivBuf = s.ivBuf := rfl
@[simp] theorem State.finish_refBuf (r : Result) :
    (s.finish r).refBuf = s.refBuf := rfl
@[simp] theorem State.finish_outBuf (r : Result) :
    (s.finish r).outBuf = Memory.ofBytes r.out := rfl
@[simp] theorem State.finish_cap (r : Result) :
    (s.finish r).cap = s.cap := rfl
@[simp] theorem State.finish_schedule (r : Result) :
    (s.finish r).schedule = s.schedule := rfl
@[simp] theorem State.finish_replies (r : Result) :
    (s.finish r).replies = s.replies := rfl

/-! ## discard -/

@[simp] theorem State.discard_phase :
    s.discard.phase = .idle := rfl
@[simp] theorem State.discard_vres :
    s.discard.vres = .none := rfl
@[simp] theorem State.discard_err :
    s.discard.err = .none := rfl
@[simp] theorem State.discard_inLen :
    s.discard.inLen = 0 := rfl
@[simp] theorem State.discard_kmLen :
    s.discard.kmLen = 0 := rfl
@[simp] theorem State.discard_ivLen :
    s.discard.ivLen = 0 := rfl
@[simp] theorem State.discard_refLen :
    s.discard.refLen = 0 := rfl
@[simp] theorem State.discard_outLen :
    s.discard.outLen = 0 := rfl
@[simp] theorem State.discard_mismatchAt :
    s.discard.mismatchAt = 0 := rfl
@[simp] theorem State.discard_mismatchInfo :
    s.discard.mismatchInfo = ⟨none, none⟩ := rfl
@[simp] theorem State.discard_lastCmd :
    s.discard.lastCmd = 0 := rfl
@[simp] theorem State.discard_inBuf :
    s.discard.inBuf = [] := rfl
@[simp] theorem State.discard_kmBuf :
    s.discard.kmBuf = [] := rfl
@[simp] theorem State.discard_ivBuf :
    s.discard.ivBuf = [] := rfl
@[simp] theorem State.discard_refBuf :
    s.discard.refBuf = [] := rfl
@[simp] theorem State.discard_outBuf :
    s.discard.outBuf = [] := rfl
@[simp] theorem State.discard_cap :
    s.discard.cap = s.cap := rfl
@[simp] theorem State.discard_schedule :
    s.discard.schedule = s.schedule := rfl
@[simp] theorem State.discard_replies :
    s.discard.replies = s.replies := rfl

/-! ## withSchedule -/

@[simp] theorem State.withSchedule_phase (l : List AgentStep) :
    (s.withSchedule l).phase = s.phase := rfl
@[simp] theorem State.withSchedule_vres (l : List AgentStep) :
    (s.withSchedule l).vres = s.vres := rfl
@[simp] theorem State.withSchedule_err (l : List AgentStep) :
    (s.withSchedule l).err = s.err := rfl
@[simp] theorem State.withSchedule_inLen (l : List AgentStep) :
    (s.withSchedule l).inLen = s.inLen := rfl
@[simp] theorem State.withSchedule_kmLen (l : List AgentStep) :
    (s.withSchedule l).kmLen = s.kmLen := rfl
@[simp] theorem State.withSchedule_ivLen (l : List AgentStep) :
    (s.withSchedule l).ivLen = s.ivLen := rfl
@[simp] theorem State.withSchedule_refLen (l : List AgentStep) :
    (s.withSchedule l).refLen = s.refLen := rfl
@[simp] theorem State.withSchedule_outLen (l : List AgentStep) :
    (s.withSchedule l).outLen = s.outLen := rfl
@[simp] theorem State.withSchedule_mismatchAt (l : List AgentStep) :
    (s.withSchedule l).mismatchAt = s.mismatchAt := rfl
@[simp] theorem State.withSchedule_mismatchInfo (l : List AgentStep) :
    (s.withSchedule l).mismatchInfo = s.mismatchInfo := rfl
@[simp] theorem State.withSchedule_lastCmd (l : List AgentStep) :
    (s.withSchedule l).lastCmd = s.lastCmd := rfl
@[simp] theorem State.withSchedule_inBuf (l : List AgentStep) :
    (s.withSchedule l).inBuf = s.inBuf := rfl
@[simp] theorem State.withSchedule_kmBuf (l : List AgentStep) :
    (s.withSchedule l).kmBuf = s.kmBuf := rfl
@[simp] theorem State.withSchedule_ivBuf (l : List AgentStep) :
    (s.withSchedule l).ivBuf = s.ivBuf := rfl
@[simp] theorem State.withSchedule_refBuf (l : List AgentStep) :
    (s.withSchedule l).refBuf = s.refBuf := rfl
@[simp] theorem State.withSchedule_outBuf (l : List AgentStep) :
    (s.withSchedule l).outBuf = s.outBuf := rfl
@[simp] theorem State.withSchedule_cap (l : List AgentStep) :
    (s.withSchedule l).cap = s.cap := rfl
@[simp] theorem State.withSchedule_schedule (l : List AgentStep) :
    (s.withSchedule l).schedule = l := rfl
@[simp] theorem State.withSchedule_replies (l : List AgentStep) :
    (s.withSchedule l).replies = s.replies := rfl

/-! ## answer -/

@[simp] theorem State.answer_phase (r : Reply) :
    (s.answer r).phase = s.phase := rfl
@[simp] theorem State.answer_vres (r : Reply) :
    (s.answer r).vres = s.vres := rfl
@[simp] theorem State.answer_err (r : Reply) :
    (s.answer r).err = s.err := rfl
@[simp] theorem State.answer_inLen (r : Reply) :
    (s.answer r).inLen = s.inLen := rfl
@[simp] theorem State.answer_kmLen (r : Reply) :
    (s.answer r).kmLen = s.kmLen := rfl
@[simp] theorem State.answer_ivLen (r : Reply) :
    (s.answer r).ivLen = s.ivLen := rfl
@[simp] theorem State.answer_refLen (r : Reply) :
    (s.answer r).refLen = s.refLen := rfl
@[simp] theorem State.answer_outLen (r : Reply) :
    (s.answer r).outLen = s.outLen := rfl
@[simp] theorem State.answer_mismatchAt (r : Reply) :
    (s.answer r).mismatchAt = s.mismatchAt := rfl
@[simp] theorem State.answer_mismatchInfo (r : Reply) :
    (s.answer r).mismatchInfo = s.mismatchInfo := rfl
@[simp] theorem State.answer_lastCmd (r : Reply) :
    (s.answer r).lastCmd = s.lastCmd := rfl
@[simp] theorem State.answer_inBuf (r : Reply) :
    (s.answer r).inBuf = s.inBuf := rfl
@[simp] theorem State.answer_kmBuf (r : Reply) :
    (s.answer r).kmBuf = s.kmBuf := rfl
@[simp] theorem State.answer_ivBuf (r : Reply) :
    (s.answer r).ivBuf = s.ivBuf := rfl
@[simp] theorem State.answer_refBuf (r : Reply) :
    (s.answer r).refBuf = s.refBuf := rfl
@[simp] theorem State.answer_outBuf (r : Reply) :
    (s.answer r).outBuf = s.outBuf := rfl
@[simp] theorem State.answer_cap (r : Reply) :
    (s.answer r).cap = s.cap := rfl
@[simp] theorem State.answer_schedule (r : Reply) :
    (s.answer r).schedule = s.schedule := rfl
@[simp] theorem State.answer_replies (r : Reply) :
    (s.answer r).replies = r :: s.replies := rfl

/-! ## storeReg -/

@[simp] theorem State.storeReg_phase (r : RegName) (w : Word) :
    (s.storeReg r w).phase = s.phase := by cases r <;> rfl
@[simp] theorem State.storeReg_vres (r : RegName) (w : Word) :
    (s.storeReg r w).vres = s.vres := by cases r <;> rfl
@[simp] theorem State.storeReg_err (r : RegName) (w : Word) :
    (s.storeReg r w).err = s.err := by cases r <;> rfl
@[simp] theorem State.storeReg_inLen (r : RegName) (w : Word) :
    (s.storeReg r w).inLen = if r = .inLen then w else s.inLen := by cases r <;> rfl
@[simp] theorem State.storeReg_kmLen (r : RegName) (w : Word) :
    (s.storeReg r w).kmLen = if r = .kmLen then w else s.kmLen := by cases r <;> rfl
@[simp] theorem State.storeReg_ivLen (r : RegName) (w : Word) :
    (s.storeReg r w).ivLen = if r = .ivLen then w else s.ivLen := by cases r <;> rfl
@[simp] theorem State.storeReg_refLen (r : RegName) (w : Word) :
    (s.storeReg r w).refLen = if r = .refLen then w else s.refLen := by cases r <;> rfl
@[simp] theorem State.storeReg_outLen (r : RegName) (w : Word) :
    (s.storeReg r w).outLen = s.outLen := by cases r <;> rfl
@[simp] theorem State.storeReg_mismatchAt (r : RegName) (w : Word) :
    (s.storeReg r w).mismatchAt = s.mismatchAt := by cases r <;> rfl
@[simp] theorem State.storeReg_mismatchInfo (r : RegName) (w : Word) :
    (s.storeReg r w).mismatchInfo = s.mismatchInfo := by cases r <;> rfl
@[simp] theorem State.storeReg_lastCmd (r : RegName) (w : Word) :
    (s.storeReg r w).lastCmd = s.lastCmd := by cases r <;> rfl
@[simp] theorem State.storeReg_inBuf (r : RegName) (w : Word) :
    (s.storeReg r w).inBuf = s.inBuf := by cases r <;> rfl
@[simp] theorem State.storeReg_kmBuf (r : RegName) (w : Word) :
    (s.storeReg r w).kmBuf = s.kmBuf := by cases r <;> rfl
@[simp] theorem State.storeReg_ivBuf (r : RegName) (w : Word) :
    (s.storeReg r w).ivBuf = s.ivBuf := by cases r <;> rfl
@[simp] theorem State.storeReg_refBuf (r : RegName) (w : Word) :
    (s.storeReg r w).refBuf = s.refBuf := by cases r <;> rfl
@[simp] theorem State.storeReg_outBuf (r : RegName) (w : Word) :
    (s.storeReg r w).outBuf = s.outBuf := by cases r <;> rfl
@[simp] theorem State.storeReg_cap (r : RegName) (w : Word) :
    (s.storeReg r w).cap = s.cap := by cases r <;> rfl
@[simp] theorem State.storeReg_schedule (r : RegName) (w : Word) :
    (s.storeReg r w).schedule = s.schedule := by cases r <;> rfl
@[simp] theorem State.storeReg_replies (r : RegName) (w : Word) :
    (s.storeReg r w).replies = s.replies := by cases r <;> rfl

/-! ## setBuf -/

@[simp] theorem State.setBuf_phase (sp : Space) (m : Memory) :
    (s.setBuf sp m).phase = s.phase := by cases sp <;> rfl
@[simp] theorem State.setBuf_vres (sp : Space) (m : Memory) :
    (s.setBuf sp m).vres = s.vres := by cases sp <;> rfl
@[simp] theorem State.setBuf_err (sp : Space) (m : Memory) :
    (s.setBuf sp m).err = s.err := by cases sp <;> rfl
@[simp] theorem State.setBuf_inLen (sp : Space) (m : Memory) :
    (s.setBuf sp m).inLen = s.inLen := by cases sp <;> rfl
@[simp] theorem State.setBuf_kmLen (sp : Space) (m : Memory) :
    (s.setBuf sp m).kmLen = s.kmLen := by cases sp <;> rfl
@[simp] theorem State.setBuf_ivLen (sp : Space) (m : Memory) :
    (s.setBuf sp m).ivLen = s.ivLen := by cases sp <;> rfl
@[simp] theorem State.setBuf_refLen (sp : Space) (m : Memory) :
    (s.setBuf sp m).refLen = s.refLen := by cases sp <;> rfl
@[simp] theorem State.setBuf_outLen (sp : Space) (m : Memory) :
    (s.setBuf sp m).outLen = s.outLen := by cases sp <;> rfl
@[simp] theorem State.setBuf_mismatchAt (sp : Space) (m : Memory) :
    (s.setBuf sp m).mismatchAt = s.mismatchAt := by cases sp <;> rfl
@[simp] theorem State.setBuf_mismatchInfo (sp : Space) (m : Memory) :
    (s.setBuf sp m).mismatchInfo = s.mismatchInfo := by cases sp <;> rfl
@[simp] theorem State.setBuf_lastCmd (sp : Space) (m : Memory) :
    (s.setBuf sp m).lastCmd = s.lastCmd := by cases sp <;> rfl
@[simp] theorem State.setBuf_inBuf (sp : Space) (m : Memory) :
    (s.setBuf sp m).inBuf = if sp = .inp then m else s.inBuf := by cases sp <;> rfl
@[simp] theorem State.setBuf_kmBuf (sp : Space) (m : Memory) :
    (s.setBuf sp m).kmBuf = if sp = .km then m else s.kmBuf := by cases sp <;> rfl
@[simp] theorem State.setBuf_ivBuf (sp : Space) (m : Memory) :
    (s.setBuf sp m).ivBuf = if sp = .iv then m else s.ivBuf := by cases sp <;> rfl
@[simp] theorem State.setBuf_refBuf (sp : Space) (m : Memory) :
    (s.setBuf sp m).refBuf = if sp = .ref then m else s.refBuf := by cases sp <;> rfl
@[simp] theorem State.setBuf_outBuf (sp : Space) (m : Memory) :
    (s.setBuf sp m).outBuf = if sp = .out then m else s.outBuf := by cases sp <;> rfl
@[simp] theorem State.setBuf_cap (sp : Space) (m : Memory) :
    (s.setBuf sp m).cap = s.cap := by cases sp <;> rfl
@[simp] theorem State.setBuf_schedule (sp : Space) (m : Memory) :
    (s.setBuf sp m).schedule = s.schedule := by cases sp <;> rfl
@[simp] theorem State.setBuf_replies (sp : Space) (m : Memory) :
    (s.setBuf sp m).replies = s.replies := by cases sp <;> rfl

/-! ## The buffers by space -/

@[simp] theorem State.setBuf_buf (sp sp' : Space) (m : Memory) :
    (s.setBuf sp m).buf sp' = if sp' = sp then m else s.buf sp' := by
  cases sp <;> cases sp' <;> rfl
@[simp] theorem State.start_buf (w : Word) (sp : Space) :
    (s.start w).buf sp = if sp = .out then [] else s.buf sp := by cases sp <;> rfl
@[simp] theorem State.finish_buf (r : Result) (sp : Space) :
    (s.finish r).buf sp = if sp = .out then Memory.ofBytes r.out else s.buf sp := by
  cases sp <;> rfl
@[simp] theorem State.discard_buf (sp : Space) :
    s.discard.buf sp = [] := by cases sp <;> rfl
@[simp] theorem State.withSchedule_buf (l : List AgentStep) (sp : Space) :
    (s.withSchedule l).buf sp = s.buf sp := by cases sp <;> rfl
@[simp] theorem State.answer_buf (r : Reply) (sp : Space) :
    (s.answer r).buf sp = s.buf sp := by cases sp <;> rfl
@[simp] theorem State.storeReg_buf (r : RegName) (w : Word) (sp : Space) :
    (s.storeReg r w).buf sp = s.buf sp := by
  cases r <;> cases sp <;> rfl
@[simp] theorem State.buf_out :
    s.buf .out = s.outBuf := rfl

/-! ## The sizes -/

@[simp] theorem State.size_iv :
    s.size .iv = 16 := rfl
/-- The size of a space depends on nothing but `CAP`. -/
theorem State.size_congr {s t : State} (h : t.cap = s.cap) (sp : Space) : t.size sp = s.size sp := by
  cases sp <;> simp [State.size, h]

/-- A word stored in a register number that holds nothing leaves the state as it was. -/
theorem State.storeReg_self (r : RegName) (w : Word)
    (h : r ≠ .inLen ∧ r ≠ .kmLen ∧ r ≠ .ivLen ∧ r ≠ .refLen) : s.storeReg r w = s := by
  cases r <;> first | rfl | simp at h

end Sys2Proof.Machine
end

