-- ==== Sys2Proof/Laws/Ops.lean ====
section
/-! SUPPORT. What each shared operation can do, said once: the completion of a command, its result, the host's
register write, and one step of an agent. -/

namespace Sys2Proof.Machine

/-! ## Completion -/

@[simp] theorem State.completeWith_busy {s : State} (h : s.phase = .busy) (run : State → Result) :
    s.completeWith run = .next (s.finish (run s)) := if_pos h

@[simp] theorem State.completeWith_not_busy {s : State} (h : s.phase ≠ .busy) (run : State → Result) :
    s.completeWith run = .next s := if_neg h

/-- A completion touches no input (10_state.md R41). -/
theorem State.finish_keepsInputs (s : State) (r : Result) : s.KeepsInputs (s.finish r) where
  inLen    := rfl
  kmLen    := rfl
  ivLen    := rfl
  refLen   := rfl
  lastCmd  := rfl
  cap      := rfl
  bytes    := fun sp h a => by simp [h]
  schedule := rfl
  replies  := rfl

/-- A completion leaves exactly the result it was given, when its output is no longer than a word can say. -/
theorem State.finish_completed (s : State) (r : Result) (h : r.out.length < 2 ^ 32) :
    (s.finish r).CompletedWith r where
  phase        := rfl
  err          := rfl
  vres         := rfl
  output       := ⟨by simp; omega, fun i => by simp⟩
  mismatchAt   := rfl
  mismatchInfo := rfl

/-- The output read back after a completion. -/
theorem State.finish_output (s : State) (r : Result) (h : r.out.length < 2 ^ 32) : (s.finish r).output = r.out := by
  have : (BitVec.ofNat 32 r.out.length).toNat = r.out.length := by simp; omega
  simp only [State.output, State.finish_outBuf, State.finish_outLen, this, Memory.bytes_ofBytes]

/-! ## The result of a command -/

@[simp] theorem judge_error (v : Bool) (ref : List Byte) (k : Err) : judge v ref (.error k) = Result.failed v k := rfl

@[simp] theorem judge_plain (ref out : List Byte) :
    judge false ref (.ok out) = ⟨.none, .none, out, 0, ⟨none, none⟩⟩ := rfl

@[simp] theorem judge_verify (ref out : List Byte) :
    judge true ref (.ok out) = (compareBytes out ref).result out := rfl

@[simp] theorem Verdict.result_out (out : List Byte) (v : Verdict) : (v.result out).out = out := by cases v <;> rfl

/-- The output of a judged command: none after an error, the engine's otherwise. -/
theorem judge_out (v : Bool) (ref : List Byte) (r : Except Err (List Byte)) :
    (judge v ref r).out = match r with | .ok out => out | .error _ => [] := by
  cases r <;> cases v <;> simp [Result.failed]

/-- Every combination of error and verification result that a command can end with is a row of R206. -/
theorem judge_legal (v : Bool) (ref : List Byte) (r : Except Err (List Byte))
    (h : ∀ k, r = .error k → k ≠ .none ∧ k ≠ .mismatch ∧ k ≠ .invalidCommand) :
    (Phase.done, (judge v ref r).vres, (judge v ref r).err) ∈ legalStatus := by
  cases r with
  | ok out => cases v <;> simp [judge, legalStatus]; cases compareBytes out ref <;> simp [Verdict.result]
  | error k => have := h k rfl; cases v <;> cases k <;> simp_all [Result.failed, legalStatus]

/-- A comparison that fails has a byte on at least one side (10_state.md R33). -/
theorem compareBytesFrom_valid {d d' : Nat} {a e : List Byte} {x y : Option Byte}
    (h : compareBytesFrom d a e = .fail d' x y) : x.isSome ∨ y.isSome := by
  induction a generalizing d e with
  | nil => cases e <;> simp [compareBytesFrom] at h; simp [← h.2.1]
  | cons b a ih =>
    cases e with
    | nil => simp [compareBytesFrom] at h; simp [← h.2.2]
    | cons c e =>
      unfold compareBytesFrom at h
      split at h
      · exact ih h
      · simp at h; simp [← h.2.1]

/-- The index of a failing comparison lies inside the longer sequence, at most at the end of the other. -/
theorem compareBytesFrom_index {d d' : Nat} {a e : List Byte} {x y : Option Byte}
    (h : compareBytesFrom d a e = .fail d' x y) : d ≤ d' ∧ d' ≤ d + min a.length e.length := by
  induction a generalizing d e with
  | nil => cases e <;> simp [compareBytesFrom] at h; simp [h.1]
  | cons b a ih =>
    cases e with
    | nil => simp [compareBytesFrom] at h; simp [h.1]
    | cons c e =>
      unfold compareBytesFrom at h
      split at h
      · have := ih h; simp only [List.length_cons]; omega
      · simp at h; omega

/-- `MISMATCH_AT` and `MISMATCH_INFO` are zero unless the result is FAIL, and a FAIL has a valid byte. -/
theorem judge_mismatch (v : Bool) (ref : List Byte) (r : Except Err (List Byte)) :
    ((judge v ref r).vres ≠ .fail → (judge v ref r).mismatchAt = 0 ∧ (judge v ref r).mismatchInfo = ⟨none, none⟩) ∧
    ((judge v ref r).vres = .fail →
      (judge v ref r).mismatchInfo.expected.isSome ∨ (judge v ref r).mismatchInfo.actual.isSome) := by
  cases r with
  | error k => cases v <;> simp [Result.failed]
  | ok out =>
    cases v
    · simp
    · rw [judge_verify]
      cases h : compareBytes out ref with
      | pass => simp [Verdict.result]
      | fail d e a => simpa [Verdict.result] using compareBytesFrom_valid h

/-! ## The engines -/

@[simp] theorem State.length_input (s : State) : s.input.length = s.inLen.toNat := by simp [State.input]

@[simp] theorem State.length_pad (s : State) : s.pad.length = s.inLen.toNat := by simp [State.pad]

/-- The XOR unit: its one error, and an output as long as the input (40_otp_xor.md R111). -/
theorem xorEngine_cases (s : State) :
    (s.kmLen < s.inLen ∧ xorEngine s = .error .insufficientKeyMaterial) ∨
    (¬ s.kmLen < s.inLen ∧ xorEngine s = .ok (xorTransform s.input s.pad) ∧
      (xorTransform s.input s.pad).length = s.inLen.toNat) := by
  by_cases h : s.kmLen < s.inLen
  · exact .inl ⟨h, if_pos h⟩
  · exact .inr ⟨h, if_neg h, by simp [xorTransform]⟩

@[simp] theorem length_blockBytes (b : Block) : b.bytes.length = 16 := rfl

@[simp] theorem length_bytesOf (bs : List Block) : (bytesOf bs).length = 16 * bs.length := by
  induction bs with
  | nil => rfl
  | cons b bs ih => simp only [bytesOf, List.flatMap_cons, List.length_append] at *; simp; omega

@[simp] theorem length_cbcChain (rk : List Block) (prev : Block) (cs : List Block) :
    (cbcChain rk prev cs).length = cs.length := by
  induction cs generalizing prev with
  | nil => rfl
  | cons c cs ih => simp [cbcChain, ih]

@[simp] theorem length_cbcEncryptChain (rk : List Block) (prev : Block) (xs : List Block) :
    (cbcEncryptChain rk prev xs).length = xs.length := by
  induction xs generalizing prev with
  | nil => rfl
  | cons x xs ih => simp [cbcEncryptChain, ih]

@[simp] theorem length_blocksOf (ct : List Byte) : (blocksOf ct).length = ct.length / 16 := by
  simp [blocksOf, Config.blockBytes]

/-- The chained plaintext is as long as the whole blocks of the ciphertext (41_aes_cbc_decrypt.md R134). -/
@[simp] theorem length_cbcRaw (ct key iv : List Byte) : (cbcRaw ct key iv).length = 16 * (ct.length / 16) := by
  simp [cbcRaw]

/-- The reference encryptor keeps the length of whole blocks (42_aes128_inverse_cipher.md R176). -/
@[simp] theorem length_cbcEncryptRaw (x key iv : List Byte) :
    (cbcEncryptRaw x key iv).length = 16 * (x.length / 16) := by
  simp [cbcEncryptRaw]

/-- What removing the padding gives: a prefix, 1 to 16 bytes shorter (41_aes_cbc_decrypt.md R135, R136). -/
theorem unpad_eq_some {raw out : List Byte} (h : unpad raw = some out) :
    ∃ p, 1 ≤ p ∧ p ≤ 16 ∧ p = (raw.getLastD 0).toNat ∧ out = raw.take (raw.length - p) := by
  unfold unpad at h
  simp only at h
  split at h
  · rename_i hp
    exact ⟨_, hp.1, hp.2.1, rfl, by simpa using h.symm⟩
  · simp at h

/-- The four length conditions of `CBCDEC` (41_aes_cbc_decrypt.md R131). -/
theorem State.cipherLengthsOk_iff (s : State) :
    s.cipherLengthsOk = true ↔ s.kmLen = 16 ∧ s.ivLen = 16 ∧ s.inLen.toNat % 16 = 0 ∧ s.inLen ≠ 0 := by
  have e : ∀ w : Word, w.toNat = 16 ↔ w = 16 := fun w => by
    constructor
    · intro h; exact BitVec.eq_of_toNat_eq (by simpa using h)
    · rintro rfl; rfl
  have z : ∀ w : Word, 0 < w.toNat ↔ w ≠ 0 := fun w => by
    rw [Nat.pos_iff_ne_zero, not_iff_not]
    constructor
    · intro h; exact BitVec.eq_of_toNat_eq (by simpa using h)
    · rintro rfl; rfl
  simp only [State.cipherLengthsOk, Bool.and_eq_true, decide_eq_true_eq, z, and_assoc]
  simp only [Config.keyBytes, Config.ivBytes, Config.blockBytes, e]

/-- The CBC unit: its two errors, and an output 1 to 16 bytes shorter than the input (41_aes_cbc_decrypt.md R130). -/
theorem cbcEngine_cases (s : State) :
    (s.cipherLengthsOk = false ∧ cbcEngine s = .error .invalidCipherInput) ∨
    (s.cipherLengthsOk = true ∧ unpad (cbcRaw s.input s.key s.ivBytes) = none ∧
      cbcEngine s = .error .invalidPadding) ∨
    ∃ out, s.cipherLengthsOk = true ∧ unpad (cbcRaw s.input s.key s.ivBytes) = some out ∧ cbcEngine s = .ok out ∧
      ∃ p, 1 ≤ p ∧ p ≤ 16 ∧ out.length + p = s.inLen.toNat := by
  unfold cbcEngine
  cases hl : s.cipherLengthsOk
  · exact .inl ⟨rfl, rfl⟩
  · right
    cases hu : unpad (cbcRaw s.input s.key s.ivBytes) with
    | none => exact .inl ⟨rfl, rfl, rfl⟩
    | some out =>
      obtain ⟨p, h1, h2, -, rfl⟩ := unpad_eq_some hu
      obtain ⟨-, -, h3, h4⟩ := (State.cipherLengthsOk_iff s).1 hl
      have h5 : s.inLen.toNat ≠ 0 := fun h => h4 (BitVec.eq_of_toNat_eq (by simpa using h))
      exact .inr ⟨_, rfl, rfl, rfl, p, h1, h2, by simp; omega⟩

/-- What an engine can answer: an error kind of its own, or an output no longer than the input. -/
def EngineOk (s : State) (r : Except Err (List Byte)) : Prop :=
  match r with
  | .ok out  => out.length ≤ s.inLen.toNat
  | .error k => k ≠ .none ∧ k ≠ .mismatch ∧ k ≠ .invalidCommand

theorem xorEngine_ok (s : State) : EngineOk s (xorEngine s) := by
  rcases xorEngine_cases s with ⟨-, h⟩ | ⟨-, h, hl⟩ <;> simp_all [EngineOk]

theorem cbcEngine_ok (s : State) : EngineOk s (cbcEngine s) := by
  rcases cbcEngine_cases s with ⟨-, h⟩ | ⟨-, -, h⟩ | ⟨out, -, -, h, p, h1, -, h2⟩ <;> rw [h] <;> simp [EngineOk]
  omega

/-! ## The latched command -/

/-- The engine's step completes the latched command, and does nothing in the phases other than BUSY. -/
theorem engineComplete_eq (s : State) : engineComplete s = s.completeWith State.latchedResult := by
  unfold engineComplete State.completeWith
  by_cases hb : s.phase = .busy
  · simp only [hb, if_true]
    unfold State.latchedResult
    split <;> simp_all
    rename_i i h _
    cases i <;> simp_all [exec, execXor, execXorV, execCbcdec, execCbcdecV]
  · simp only [hb, if_false]
    split <;> try rfl
    rename_i i h _
    cases i <;> simp_all [exec, execXor, execXorV, execCbcdec, execCbcdecV]

theorem State.overCapacity_iff (s : State) (isXor verify : Bool) :
    s.overCapacity isXor verify = true ↔
      s.cap < s.inLen ∨ (isXor = true ∧ s.cap < s.kmLen) ∨ (verify = true ∧ s.cap < s.refLen) := by
  simp [State.overCapacity, or_assoc]

/-- A command's result: past the capacity check the engine's answer is judged, otherwise `CapacityExceeded`; an output
then is no longer than the input, which is no longer than `CAP`. -/
theorem State.commandResult_cases (s : State) (x v : Bool) {engine : State → Except Err (List Byte)}
    (h : EngineOk s (engine s)) :
    ∃ r, s.commandResult x v engine = judge v s.reference r ∧
      ((s.overCapacity x v = true ∧ r = .error .capacityExceeded) ∨ (s.overCapacity x v = false ∧ r = engine s)) ∧
      (∀ k, r = .error k → k ≠ .none ∧ k ≠ .mismatch ∧ k ≠ .invalidCommand) ∧
      ∀ out, r = .ok out → out.length ≤ s.inLen.toNat ∧ s.inLen ≤ s.cap := by
  unfold State.commandResult
  cases hc : s.overCapacity x v
  · refine ⟨_, rfl, .inr ⟨rfl, rfl⟩, fun k hk => ?_, fun out ho => ?_⟩
    · simp only [Bool.false_eq_true, if_false] at hk; simpa [EngineOk, hk] using h
    · simp only [Bool.false_eq_true, if_false] at ho
      refine ⟨by simpa [EngineOk, ho] using h, ?_⟩
      have := (not_congr (State.overCapacity_iff s x v)).1 (by simp [hc])
      exact BitVec.not_lt.1 fun hlt => this (.inl hlt)
  · exact ⟨_, rfl, .inl ⟨rfl, rfl⟩, by simp, by simp⟩

/-- Everything the invariant needs of a result. -/
structure Result.Fine (s : State) (r : Result) : Prop where
  legal          : (Phase.done, r.vres, r.err) ∈ legalStatus
  length_le      : r.out.length ≤ s.inLen.toNat
  length_cap     : r.out.length ≤ s.cap.toNat
  out_ok         : r.out ≠ [] → r.err = .none ∨ r.err = .mismatch
  mismatch_zero  : r.vres ≠ .fail → r.mismatchAt = 0 ∧ r.mismatchInfo = ⟨none, none⟩
  mismatch_valid : r.vres = .fail → r.mismatchInfo.expected.isSome ∨ r.mismatchInfo.actual.isSome

theorem State.commandResult_fine (s : State) (x v : Bool) {engine : State → Except Err (List Byte)}
    (h : EngineOk s (engine s)) : (s.commandResult x v engine).Fine s := by
  obtain ⟨r, hr, -, he, ho⟩ := s.commandResult_cases x v h
  rw [hr]
  refine ⟨judge_legal _ _ _ he, ?_, ?_, fun hne => ?_, (judge_mismatch v _ r).1, (judge_mismatch v _ r).2⟩
  · rw [judge_out]; cases r with
    | error k => simp
    | ok out => exact (ho out rfl).1
  · rw [judge_out]; cases r with
    | error k => simp
    | ok out => exact (ho out rfl).1.trans (ho out rfl).2
  · cases r with
    | error k => simp [Result.failed] at hne
    | ok out => cases v with
      | false => simp
      | true => rw [judge_verify]; cases compareBytes out s.reference <;> simp [Verdict.result]

/-- The result of whatever is latched is fine. -/
theorem State.latchedResult_fine (s : State) : s.latchedResult.Fine s := by
  unfold State.latchedResult
  split <;> first
    | exact s.commandResult_fine _ _ (xorEngine_ok s)
    | exact s.commandResult_fine _ _ (cbcEngine_ok s)
    | (refine ⟨?_, ?_, ?_, ?_, ?_, ?_⟩ <;> simp [invalidCommandResult, Result.failed, legalStatus])

/-! ## Register numbers -/

/-- A number selects the register whose number it is (10_state.md R22). -/
theorem RegName.ofNumber_eq_some {n : Word} {r : RegName} : RegName.ofNumber n = some r ↔ n = r.number := by
  refine ⟨fun h => BitVec.eq_of_toNat_eq ?_, fun h => by subst h; cases r <;> rfl⟩
  unfold RegName.ofNumber at h
  split at h <;> simp_all <;> subst h <;> rfl

/-- The numbers 11 and above select nothing (10_state.md R37). -/
theorem RegName.ofNumber_eq_none {n : Word} : RegName.ofNumber n = none ↔ ∀ r : RegName, n ≠ r.number := by
  constructor
  · rintro h r rfl
    cases r <;> simp [RegName.ofNumber, RegName.number] at h
  · intro h
    cases hr : RegName.ofNumber n with
    | none => rfl
    | some r => exact absurd (RegName.ofNumber_eq_some.1 hr) (h r)

/-! ## One step of an agent -/

/-- Everything a host's register write can do (44_control_ops.md R218). -/
theorem hostWriteReg_cases {s t : State} {n w : Word} (h : hostWriteReg s n w = .next t) :
    (s.phase = .busy ∧ t = s) ∨
    (s.phase ≠ .busy ∧ n = 0 ∧ w = 0x00000003 ∧ t = s.discard) ∨
    (s.phase ≠ .busy ∧ n = 0 ∧ w ≠ 0x00000003 ∧ t = s.start w) ∨
    (s.phase ≠ .busy ∧ n ≠ 0 ∧ ∃ r, RegName.ofNumber n = some r ∧ r ≠ .cmd ∧ t = s.storeReg r w) ∨
    (s.phase ≠ .busy ∧ n ≠ 0 ∧ RegName.ofNumber n = none ∧ t = s) := by
  by_cases hb : s.phase = .busy
  · simp [hostWriteReg, hb] at h; exact .inl ⟨hb, h.symm⟩
  right
  by_cases hn : n = 0
  · subst hn
    simp only [hostWriteReg, hb, if_false, show RegName.ofNumber 0 = some .cmd from rfl] at h
    by_cases hw : w = 0x00000003
    · rw [decode_clear_iff.2 hw] at h
      simp [exec, execClear, hb] at h
      exact .inl ⟨hb, rfl, hw, h.symm⟩
    · split at h
      · exact absurd (decode_clear_iff.1 ‹_›) hw
      · simp at h; exact .inr (.inl ⟨hb, rfl, hw, h.symm⟩)
  · right; right
    have hc : RegName.ofNumber n ≠ some .cmd := fun h => by
      have : n.toNat ≠ 0 := fun h0 => hn (BitVec.eq_of_toNat_eq (by simpa using h0))
      unfold RegName.ofNumber at h
      split at h <;> simp_all
    simp only [hostWriteReg, hb, if_false] at h
    split at h
    · exact absurd ‹_› hc
    · rename_i r _ hr
      simp at h
      exact .inl ⟨hb, hn, r, hr, fun h => hc (h ▸ hr), h.symm⟩
    · simp at h; exact .inr ⟨hb, hn, ‹_›, h.symm⟩

/-- Everything one step of an agent can do. -/
theorem perform_cases {s t : State} {a : AgentStep} (h : perform a s = .next t) :
    (∃ n w, a = .hostWriteReg n w ∧ hostWriteReg s n w = .next t) ∨
    (∃ n, a = .hostReadReg n ∧ t = s.answer (.reg n (s.readReg n))) ∨
    (∃ sp i b, a = .hostWriteBuf sp i b ∧ t = s.hostWriteBuf sp i b) ∨
    (∃ sp i, a = .hostReadBuf sp i ∧ t = s.answer (.byte sp i (s.readBuf sp i))) ∨
    (a = .engineComplete ∧ s.phase = .busy ∧ t = s.finish s.latchedResult) ∨
    (a = .engineComplete ∧ s.phase ≠ .busy ∧ t = s) ∨
    (a = .reset ∧ t = s.discard) := by
  cases a with
  | hostWriteReg n w => exact .inl ⟨n, w, rfl, h⟩
  | hostReadReg n => simp [perform] at h; simp [h]
  | hostWriteBuf sp i b => simp [perform] at h; simp [h]
  | hostReadBuf sp i => simp [perform] at h; simp [h]
  | engineComplete =>
    simp only [perform, engineComplete_eq] at h
    by_cases hb : s.phase = .busy
    · rw [State.completeWith_busy hb] at h; simp at h; simp [hb, h]
    · rw [State.completeWith_not_busy hb] at h; simp at h; subst h; simp [hb]
  | reset => simp [perform] at h; simp [h]

/-- A host's write of one byte changes that buffer alone, and only outside phase BUSY. -/
theorem State.hostWriteBuf_cases (s : State) (sp : Space) (i : Nat) (b : Byte) :
    ((s.phase = .busy ∨ sp = .out ∨ s.size sp ≤ i) ∧ s.hostWriteBuf sp i b = s) ∨
    (s.phase ≠ .busy ∧ sp ≠ .out ∧ i < s.size sp ∧
      s.hostWriteBuf sp i b = s.setBuf sp ((s.buf sp).write i b)) := by
  unfold State.hostWriteBuf
  split
  · simp_all
  · split
    · simp_all
    · split
      · simp_all
      · right; simp_all

end Sys2Proof.Machine
end

