-- ==== Sys2Proof/Laws/PerInstr.lean ====
section
/-! SUPPORT. Facts of every command as syntax, one lemma per constructor. -/

namespace Sys2Proof.Laws.Format

/-- Format C (30_encoding.md R90, R91): the fields of a command are well formed, its word has exactly these fields and
zero in bits 31:9, and bit 8 of the word says whether it verifies. -/
def Statement (i : Instr) : Prop :=
  i.fields.wf = true ∧ Fields.ofWord (encode i) = i.fields ∧ (encode i).toNat < 512 ∧
    i.verifies = (encode i).getLsbD 8

end Sys2Proof.Laws.Format

theorem Sys2Proof.Laws.Format.xor : Sys2Proof.Laws.Format.Statement .xor := by
  unfold Sys2Proof.Laws.Format.Statement; decide

theorem Sys2Proof.Laws.Format.xorV : Sys2Proof.Laws.Format.Statement .xorV := by
  unfold Sys2Proof.Laws.Format.Statement; decide

theorem Sys2Proof.Laws.Format.cbcdec : Sys2Proof.Laws.Format.Statement .cbcdec := by
  unfold Sys2Proof.Laws.Format.Statement; decide

theorem Sys2Proof.Laws.Format.cbcdecV : Sys2Proof.Laws.Format.Statement .cbcdecV := by
  unfold Sys2Proof.Laws.Format.Statement; decide

theorem Sys2Proof.Laws.Format.clear : Sys2Proof.Laws.Format.Statement .clear := by
  unfold Sys2Proof.Laws.Format.Statement; decide
end

