-- ==== Sys2Proof/Tests/Slice0.lean ====
section
/-! SUPPORT. Tests against the spec's own vectors (95_test_vectors.md), and, for every obligation that has hypotheses, a
concrete state and operands that meet them (`witness_<Name>`). -/

namespace Sys2Proof.Tests

open Sys2Proof.Machine

/-! ## Helpers -/

/-- The `n` bytes of a number written in hexadecimal, first byte first (00_scope.md R11). -/
def hex (n v : Nat) : List Byte := (List.range n).map fun i => BitVec.ofNat 8 (v / 256 ^ (n - 1 - i))

/-- A core with `CAP == 64` in phase BUSY, command word `w` latched, sequences loaded in IN, KM, IV and REF. -/
def running (w : Word) (x k v r : List Byte) : State :=
  { State.resetWith 64 with
    phase   := .busy
    lastCmd := w
    inLen   := BitVec.ofNat 32 x.length
    kmLen   := BitVec.ofNat 32 k.length
    ivLen   := BitVec.ofNat 32 v.length
    refLen  := BitVec.ofNat 32 r.length
    inBuf   := Memory.ofBytes x
    kmBuf   := Memory.ofBytes k
    ivBuf   := Memory.ofBytes v
    refBuf  := Memory.ofBytes r }

/-- A core with `CAP == 16` in phase BUSY with the four length registers given. -/
def lengths (i k v r : Word) : State :=
  { State.resetWith 16 with phase := .busy, inLen := i, kmLen := k, ivLen := v, refLen := r }

/-- A core in phase DONE after vector X8: the comparison failed at index 1, OUT holds `41 42`. -/
def compared : State :=
  { running 0x00000101 [0x40, 0x40] [1, 2, 3] [] [0x41, 0x43] with
    phase        := .done
    vres         := .fail
    err          := .mismatch
    outLen       := 2
    outBuf       := [(0, 0x41), (1, 0x42)]
    mismatchAt   := 1
    mismatchInfo := ⟨some 0x43, some 0x42⟩ }

/-- What `DUMP` shows (30_encoding.md R96): STATUS, the output, MISMATCH_AT and MISMATCH_INFO. -/
def dump (o : Host.Outcome State Fault Refusal) : Option (Word × List Byte × Word × Word) :=
  match o with
  | .next t    => some (t.readReg 1, t.output, t.readReg 7, t.readReg 8)
  | .fault _   => none
  | .refused _ => none

/-- The key of 95_test_vectors.md section 2.3. -/
def key : List Byte := hex 16 0x2b7e151628aed2a6abf7158809cf4f3c

/-- The initialization vector of 95_test_vectors.md section 2.3. -/
def iv : List Byte := hex 16 0x000102030405060708090a0b0c0d0e0f

/-- The ciphertext of vector A5. -/
def hello : List Byte := hex 16 0xa10259a5c40ebb322684c0843c677ba6

/-- A core about to complete `CBCDEC` on vector A5, its message in REF. -/
def helloRun : State := running 0x00000002 hello key iv [0x48, 0x65, 0x6C, 0x6C, 0x6F]

/-! ## Well-formedness and decoding -/

/-- 30_encoding.md R93: "any word with `RSV != 0`". -/
theorem test_wf_refuses_reserved_bits : (⟨0x01, false, 1⟩ : Fields).check = some .reservedBits := by decide

/-- 30_encoding.md R93: "any word with `OP` outside {0x01, 0x02, 0x03}". -/
theorem test_wf_refuses_unknown_op :
    (⟨0x04, false, 0⟩ : Fields).check = some .unknownOp ∧ (⟨0x00, true, 0⟩ : Fields).check = some .unknownOp := by decide

/-- 30_encoding.md R93: "the word `0x00000103` (`CLEAR` with `V == 1`)". -/
theorem test_wf_refuses_clear_with_verify : (⟨0x03, true, 0⟩ : Fields).check = some .clearWithVerify := by decide

/-- 30_encoding.md R91, R92: bits 31:9, bit 8, bits 7:0 of each word, written out. -/
theorem test_decode_bits :
    decode 0b00000000000000000000000000000001 = .ok .xor ∧
    decode 0b00000000000000000000000100000001 = .ok .xorV ∧
    decode 0b00000000000000000000000000000010 = .ok .cbcdec ∧
    decode 0b00000000000000000000000100000010 = .ok .cbcdecV ∧
    decode 0b00000000000000000000000000000011 = .ok .clear := by decide

/-- 95_test_vectors.md C2, C3, C4, C7, C9. -/
theorem test_decode_reserved :
    decode 0x00000004 = .error .unknownOp ∧ decode 0x000000FF = .error .unknownOp ∧
    decode 0x00000100 = .error .unknownOp ∧ decode 0x00010001 = .error .reservedBits ∧
    decode 0xFFFFFFFF = .error .reservedBits := by decide

/-- The rows of spec/opcode_table.json, as the host numbers their bits. -/
theorem test_decode_table :
    decodeTableWord 32 1 = some .xor ∧ decodeTableWord 32 257 = some .xorV ∧ decodeTableWord 32 2 = some .cbcdec ∧
    decodeTableWord 32 258 = some .cbcdecV ∧ decodeTableWord 32 3 = some .clear ∧
    decodeTableWord 32 259 = none := by decide

/-- A placed `XOR.V` runs at the next step after reset: vector X11, empty equals empty. -/
theorem test_placed_command_runs :
    dump (step (State.reset.withFetchWord 32 257)) = some (0x00000006, [], 0, 0) := by decide

/-! ## The commands -/

/-- X1: the third pad byte is not read. -/
theorem test_xor_x1 :
    dump (exec .xor (running 1 [0x41, 0x42] [1, 2, 3] [] [])) = some (0x00000002, [0x40, 0x40], 0, 0) := by decide

/-- X5: a short pad leaves no truncated output. -/
theorem test_xor_x5 :
    dump (exec .xor (running 1 [0x41, 0x42, 0x43] [1, 2] [] [])) = some (0x00000012, [], 0, 0) := by decide

/-- X8: the first difference, both bytes valid, the output still there. -/
theorem test_xorV_x8 :
    dump (exec .xorV (running 257 [0x40, 0x40] [1, 2, 3] [] [0x41, 0x43])) =
      some (0x0000004A, [0x41, 0x42], 1, 0x00034243) := by decide

/-- X9a: the output ended first. -/
theorem test_xorV_x9a :
    dump (exec .xorV (running 257 [0x40, 0x40] [1, 2, 3] [] [0x41, 0x42, 0x43])) =
      some (0x0000004A, [0x41, 0x42], 2, 0x00010043) := by decide

/-- A5: `Hello`. -/
theorem test_cbcdec_a5 : dump (exec .cbcdec helloRun) = some (0x00000002, [0x48, 0x65, 0x6C, 0x6C, 0x6F], 0, 0) := by
  decide +kernel

/-- A9: `p = 3`, the third byte from the end is `04`. -/
theorem test_cbcdec_a9 :
    dump (exec .cbcdec (running 2 (hex 16 0xa01842ae49bbe024ff4edc8b8be35e8d) key iv [])) =
      some (0x00000032, [], 0, 0) := by decide +kernel

/-- T5: two blocks, the first one tampered with, the comparison fails at index 0. -/
theorem test_cbcdecV_t5 :
    dump (exec .cbcdecV (running 258
        (hex 32 0x65768548007aef9f3d258e5c34cdc21baa81463d413073650e19ffdcf32f5c90) key iv
        (hex 19 0x3031323334353637383961626364656658595a))) =
      some (0x0000004A, hex 19 0xfb7a10dba0b07e028d788e041f5a3e3259595a, 0, 0x0003FB30) := by decide +kernel

/-- L11: a length that is no multiple of 16. -/
theorem test_cbcdecV_l11 :
    dump (exec .cbcdecV (running 258 (hex 15 1) key iv [])) = some (0x0000002E, [], 0, 0) := by decide

/-- C12: `CLEAR` in phase DONE. -/
theorem test_clear_done : exec .clear compared = .next (State.resetWith 64) := rfl

/-- C10: `CLEAR` in phase BUSY is ignored. -/
theorem test_clear_busy : exec .clear helloRun = .next helloRun := rfl

/-- 95_test_vectors.md section 3.1, `xtime` and `gmul`. -/
theorem test_field_spot_values :
    xtime 0x57 = 0xAE ∧ xtime 0xAE = 0x47 ∧ xtime 0x80 = 0x1B ∧ gmul 0x57 0x83 = 0xC1 := by decide

/-- 95_test_vectors.md section 3.5 (B3). -/
theorem test_blockDecrypt_b3 :
    (blockDecrypt (blockOf (hex 16 0x66e94bd4ef8a2c3b884cfa59ca342b2e)) (blockOf (hex 16 0))).bytes = hex 16 0 := by
  decide +kernel

/-- The same block from the reference encryptor, without padding (95_test_vectors.md S2, 42_aes128_inverse_cipher.md R175). -/
theorem test_cbcEncryptRaw_s2 :
    cbcEncryptRaw (hex 16 0) (hex 16 0) (hex 16 0) = hex 16 0x66e94bd4ef8a2c3b884cfa59ca342b2e := by
  decide +kernel

/-! ## Witnesses: the hypotheses of each obligation, met

Each is named after its obligation. Where an obligation has several clauses, each clause's hypotheses are met, at a
boundary of their range. -/

/-- The invariant, for a state all of whose fields are given. -/
theorem inv_compared : compared.Inv where
  cap_min           := by decide
  buf_wf            := fun sp => by cases sp <;> decide
  buf_fits          := fun sp => by cases sp <;> decide
  status_legal      := by decide
  idle_clear        := by decide
  busy_clear        := by decide
  outLen_le         := by decide
  out_ends          := by decide
  out_ok            := by decide
  mismatch_zero     := by decide
  mismatch_valid    := by decide
  lastCmd_not_clear := by decide

theorem inv_helloRun : helloRun.Inv where
  cap_min           := by decide
  buf_wf            := fun sp => by cases sp <;> decide
  buf_fits          := fun sp => by cases sp <;> decide
  status_legal      := by decide
  idle_clear        := by decide
  busy_clear        := by decide
  outLen_le         := by decide
  out_ends          := by decide
  out_ok            := by decide
  mismatch_zero     := by decide
  mismatch_valid    := by decide
  lastCmd_not_clear := by decide

theorem witness_StepRunsTheDecodedCommand :
    ((helloRun.withSchedule [.engineComplete]).schedule = .engineComplete :: [] ∧
      decode helloRun.lastCmd = .ok .cbcdec ∧ Instr.cbcdec ≠ .clear) ∧
    helloRun.schedule = [] ∧
    ((compared.withSchedule [.hostWriteReg 0 3]).schedule = .hostWriteReg 0 3 :: [] ∧ compared.phase ≠ .busy ∧
      decode 3 = .ok .clear) := by decide

theorem witness_BusyEnds :
    helloRun.phase = .busy ∧ .reset ∉ helloRun.schedule ∧
    (helloRun.withSchedule [.hostReadReg 1, .reset]).phase = .busy := by decide

theorem witness_HostWriteRegister :
    helloRun.phase = .busy ∧ compared.phase ≠ .busy ∧ (0 : Word) = 0 ∧ (3 : Word) = 0x00000003 := by decide

theorem witness_CapRegisterIsConstant : ∃ t, perform (.hostWriteReg 10 1) compared = .next t := ⟨_, rfl⟩

theorem witness_UnassignedRegistersReadZero :
    11 ≤ (11 : Word).toNat ∧ 11 ≤ (0xFFFFFFFF : Word).toNat := by decide

theorem witness_HostWriteBuffer :
    (compared.buf .iv).wf ∧ (15 < compared.size .iv ∧ ¬ 16 < compared.size .iv) ∧
    (63 < compared.size .inp ∧ ¬ 64 < compared.size .inp) ∧ compared.phase ≠ .busy := by decide

theorem witness_HostReadBuffer :
    compared.Inv ∧ Space.out = .out ∧ compared.outLen.toNat ≤ 2 ∧ helloRun.Inv ∧ helloRun.phase ≠ .done :=
  ⟨inv_compared, rfl, by decide, inv_helloRun, by decide⟩

theorem witness_LoadPlacesTheSequence :
    (∃ s : State, s.Inv ∧ s.phase ≠ .busy ∧ Space.iv ≠ .out ∧ (hex 16 1).length ≤ s.size .iv ∧
      s.schedule = Script.load .iv (hex 16 1) ++ [.engineComplete]) ∧
    ∃ s : State, s.Inv ∧ s.phase ≠ .busy ∧ Space.ref ≠ .out ∧ ([] : List Byte).length ≤ s.size .ref ∧
      s.schedule = Script.load .ref [] ++ [] :=
  ⟨⟨compared.withSchedule (Script.load .iv (hex 16 1) ++ [.engineComplete]),
      { inv_compared with }, by decide, by decide, by decide, rfl⟩,
    ⟨compared.withSchedule (Script.load .ref [] ++ []),
      { inv_compared with }, by decide, by decide, by decide, rfl⟩⟩

theorem witness_StartClearsResults :
    compared.phase ≠ .busy ∧ (0x00000101 : Word) ≠ 0x00000003 ∧ (0x00000103 : Word) ≠ 0x00000003 := by decide

theorem witness_ClearReturnsToReset : compared.phase ≠ .busy ∧ helloRun.phase = .busy := by decide

theorem witness_ResetZeroesEverything : compared.phase ≠ .busy := by decide

theorem witness_ResetAbandonsTheCommand : helloRun.phase = .busy := by decide

theorem witness_PhaseMachine :
    (∃ t, perform .reset helloRun = .next t) ∧ (∃ t, perform (.hostWriteReg 0 3) compared = .next t) ∧
    (∃ t, perform (.hostWriteReg 0 0xFFFFFFFF) compared = .next t) ∧
    (∃ t, perform .engineComplete helloRun = .next t) :=
  ⟨⟨_, rfl⟩, ⟨_, rfl⟩, ⟨_, rfl⟩, ⟨_, rfl⟩⟩

theorem witness_BusyLocksInputs : helloRun.phase = .busy ∧ helloRun.Inv := ⟨rfl, inv_helloRun⟩

theorem witness_LastCommandIsLatched :
    (∃ t, perform (.hostWriteReg 0 0x00000103) compared = .next t) ∧
    (∃ t, perform .reset compared = .next t) ∧ (∃ t, perform .engineComplete helloRun = .next t) ∧
    decode helloRun.lastCmd = .ok .cbcdec ∧ Instr.cbcdec ≠ .clear ∧ helloRun.Inv :=
  ⟨⟨_, rfl⟩, ⟨_, rfl⟩, ⟨_, rfl⟩, by decide, by decide, inv_helloRun⟩

theorem witness_ResultFieldsAreWrittenTogether :
    (∃ t, perform .engineComplete helloRun = .next t) ∧ helloRun.phase = .busy ∧
    (∃ t, perform (.hostWriteReg 0 1) compared = .next t) ∧ compared.phase ≠ .busy ∧
    (∃ t, perform (.hostReadReg 8) compared = .next t) :=
  ⟨⟨_, rfl⟩, by decide, ⟨_, rfl⟩, by decide, ⟨_, rfl⟩⟩

theorem witness_InputsChangeOnlyByTheHost :
    (∃ t, perform .engineComplete helloRun = .next t) ∧ AgentStep.engineComplete ≠ .reset ∧
    (∀ sp i b, AgentStep.engineComplete ≠ .hostWriteBuf sp i b) ∧
    AgentStep.engineComplete ≠ .hostWriteReg 0 0x00000003 ∧ Space.inp ≠ .out :=
  ⟨⟨_, rfl⟩, by decide, fun _ _ _ h => (nomatch h), by decide, by decide⟩

theorem witness_NoErrorIsSticky : compared.phase = .done := by decide

theorem witness_XorTransformBytes :
    ([0x41, 0x42] : List Byte).length ≤ ([1, 2] : List Byte).length ∧
    ([] : List Byte).length ≤ ([1] : List Byte).length ∧ 1 < ([0x41, 0x42] : List Byte).length := by decide

/-- Capacity passed by one on either register; a pad one byte short; a pad exactly long enough at full capacity; nothing
to do. -/
theorem witness_XorCommand :
    ((lengths 17 0 0 0).phase = .busy ∧ (lengths 17 0 0 0).cap < (lengths 17 0 0 0).inLen) ∧
    ((lengths 2 17 0 0).phase = .busy ∧ (lengths 2 17 0 0).cap < (lengths 2 17 0 0).kmLen) ∧
    ((lengths 16 15 0 0).phase = .busy ∧ (lengths 16 15 0 0).inLen ≤ (lengths 16 15 0 0).cap ∧
      (lengths 16 15 0 0).kmLen ≤ (lengths 16 15 0 0).cap ∧ (lengths 16 15 0 0).kmLen < (lengths 16 15 0 0).inLen) ∧
    ((lengths 16 16 0 0).phase = .busy ∧ (lengths 16 16 0 0).inLen ≤ (lengths 16 16 0 0).cap ∧
      (lengths 16 16 0 0).kmLen ≤ (lengths 16 16 0 0).cap ∧ (lengths 16 16 0 0).inLen ≤ (lengths 16 16 0 0).kmLen) ∧
    ((lengths 0 0 0 0).phase = .busy ∧ (lengths 0 0 0 0).inLen ≤ (lengths 0 0 0 0).kmLen) := by decide

/-- As for `XOR`, and `REF_LEN` passed by one (X12c). -/
theorem witness_XorVerifyCommand :
    ((lengths 2 3 0 17).phase = .busy ∧ (lengths 2 3 0 17).cap < (lengths 2 3 0 17).refLen) ∧
    ((lengths 16 15 0 16).phase = .busy ∧ (lengths 16 15 0 16).inLen ≤ (lengths 16 15 0 16).cap ∧
      (lengths 16 15 0 16).kmLen ≤ (lengths 16 15 0 16).cap ∧ (lengths 16 15 0 16).refLen ≤ (lengths 16 15 0 16).cap ∧
      (lengths 16 15 0 16).kmLen < (lengths 16 15 0 16).inLen) ∧
    ((lengths 16 16 0 16).phase = .busy ∧ (lengths 16 16 0 16).inLen ≤ (lengths 16 16 0 16).cap ∧
      (lengths 16 16 0 16).kmLen ≤ (lengths 16 16 0 16).cap ∧ (lengths 16 16 0 16).refLen ≤ (lengths 16 16 0 16).cap ∧
      (lengths 16 16 0 16).inLen ≤ (lengths 16 16 0 16).kmLen) := by decide

/-- One lane, and more lanes than bytes with the one group; five bytes in two groups taken in falling order. -/
theorem witness_LanesCannotBeObserved :
    (1 ≤ 4 ∧ (hex 5 1).length ≤ (hex 5 2).length ∧ [1, 0].Perm (List.range (((hex 5 1).length + 4 - 1) / 4))) ∧
    (1 ≤ 1 ∧ [0, 1].Perm (List.range (((hex 2 1).length + 1 - 1) / 1))) ∧
    (1 ≤ 16 ∧ [0].Perm (List.range (((hex 2 1).length + 16 - 1) / 16))) := by decide

/-- X1 followed by X2. -/
theorem witness_XorIsAnInvolution :
    ([0x41, 0x42] : List Byte).length ≤ ([1, 2, 3] : List Byte).length ∧
    ∃ s t s' t' : State, s.phase = .busy ∧ exec .xor s = .next t ∧ t.err = .none ∧
      s'.phase = .busy ∧ s'.inLen = s.inLen ∧ s'.kmLen = s.kmLen ∧ s'.cap = s.cap ∧
      (∀ i, i < s.inLen.toNat → s'.inBuf.read i = t.outBuf.read i) ∧
      (∀ i, i < s.inLen.toNat → s'.kmBuf.read i = s.kmBuf.read i) ∧ exec .xor s' = .next t' :=
  ⟨by decide, running 1 [0x41, 0x42] [1, 2, 3] [] [], _, running 1 [0x40, 0x40] [1, 2, 3] [] [], _, rfl, rfl,
    by decide, rfl, rfl, rfl, rfl, by decide, by decide, rfl⟩

/-- Capacity passed by one block; an input of no length; a key of 32 bytes; one block at full capacity. -/
theorem witness_CbcDecryptCommand :
    ((lengths 32 16 16 0).phase = .busy ∧ (lengths 32 16 16 0).cap < (lengths 32 16 16 0).inLen) ∧
    ((lengths 0 16 16 0).inLen ≤ (lengths 0 16 16 0).cap ∧ ¬ (lengths 0 16 16 0).inLen ≠ 0) ∧
    ((lengths 16 32 16 0).inLen ≤ (lengths 16 32 16 0).cap ∧ ¬ (lengths 16 32 16 0).kmLen = 16) ∧
    ((lengths 16 16 16 0).phase = .busy ∧ (lengths 16 16 16 0).inLen ≤ (lengths 16 16 16 0).cap ∧
      (lengths 16 16 16 0).kmLen = 16 ∧ (lengths 16 16 16 0).ivLen = 16 ∧
      (lengths 16 16 16 0).inLen.toNat % 16 = 0 ∧ (lengths 16 16 16 0).inLen ≠ 0) := by decide

/-- As for `CBCDEC`, and `REF_LEN` passed by one. -/
theorem witness_CbcDecryptVerifyCommand :
    ((lengths 16 16 16 17).phase = .busy ∧ (lengths 16 16 16 17).cap < (lengths 16 16 16 17).refLen) ∧
    ((lengths 15 16 16 16).inLen ≤ (lengths 15 16 16 16).cap ∧ (lengths 15 16 16 16).refLen ≤ (lengths 15 16 16 16).cap ∧
      ¬ (lengths 15 16 16 16).inLen.toNat % 16 = 0) ∧
    ((lengths 16 16 16 16).phase = .busy ∧ (lengths 16 16 16 16).inLen ≤ (lengths 16 16 16 16).cap ∧
      (lengths 16 16 16 16).refLen ≤ (lengths 16 16 16 16).cap ∧
      (lengths 16 16 16 16).kmLen = 16 ∧ (lengths 16 16 16 16).ivLen = 16 ∧
      (lengths 16 16 16 16).inLen.toNat % 16 = 0 ∧ (lengths 16 16 16 16).inLen ≠ 0) := by decide

theorem witness_CbcRawChainsBlocks :
    hello.length = 16 * 1 ∧ 1 ≤ 1 ∧ key.length = 16 ∧ iv.length = 16 ∧ 0 < 1 ∧ 15 < 16 := by decide

/-- The raw block of A5 (`p = 11`), a whole block of padding (A6), and the raw blocks of A9 and A10. -/
theorem witness_UnpadStripsPadding :
    ((hex 16 0x48656c6c6f0b0b0b0b0b0b0b0b0b0b0b).length = 16 * 1 ∧ 1 ≤ 1 ∧
      11 = ((hex 16 0x48656c6c6f0b0b0b0b0b0b0b0b0b0b0b).getD (16 * 1 - 1) 0).toNat ∧
      ∀ j, j ≤ 11 → 1 ≤ j → ((hex 16 0x48656c6c6f0b0b0b0b0b0b0b0b0b0b0b).getD (16 * 1 - j) 0).toNat = 11) ∧
    (16 = ((hex 16 0x10101010101010101010101010101010).getD (16 * 1 - 1) 0).toNat ∧
      ∀ j, j ≤ 16 → 1 ≤ j → ((hex 16 0x10101010101010101010101010101010).getD (16 * 1 - j) 0).toNat = 16) ∧
    (3 = ((hex 16 0x00112233445566778899aabbcc040303).getD (16 * 1 - 1) 0).toNat ∧
      ((hex 16 0x00112233445566778899aabbcc040303).getD (16 * 1 - 3) 0).toNat ≠ 3) ∧
    17 = ((hex 16 0x11111111111111111111111111111111).getD (16 * 1 - 1) 0).toNat := by decide

theorem witness_OutputIsShorterByThePadding :
    ∃ t, helloRun.phase = .busy ∧ exec .cbcdec helloRun = .next t ∧ t.err = .none :=
  ⟨_, rfl, rfl, by decide +kernel⟩

/-- The message of A5, through the reference encryptor. -/
theorem witness_CbcRoundTrip :
    ∃ s : State, ∃ m : List Byte, key.length = 16 ∧ iv.length = 16 ∧ m.length + (16 - m.length % 16) ≤ s.cap.toNat ∧
      s.phase = .busy ∧ s.inLen.toNat = (cbcEncrypt m key iv).length ∧ s.kmLen = 16 ∧ s.ivLen = 16 ∧
      (∀ i, i < s.inLen.toNat → s.inBuf.read i = (cbcEncrypt m key iv).getD i 0) ∧
      (∀ i, i < 16 → s.kmBuf.read i = key.getD i 0) ∧ (∀ i, i < 16 → s.ivBuf.read i = iv.getD i 0) :=
  ⟨helloRun, [0x48, 0x65, 0x6C, 0x6C, 0x6F], by decide, by decide, by decide, rfl, by decide +kernel, rfl, rfl,
    by decide +kernel, by decide +kernel, by decide +kernel⟩

/-- One block, the least the rule allows; a message of whole blocks, which `Pad` makes one block longer. -/
theorem witness_CbcEncryptChainsBlocks :
    (hello.length = 16 * 1 ∧ 1 ≤ 1 ∧ key.length = 16 ∧ iv.length = 16 ∧ (∃ y, y = cbcEncryptRaw hello key iv) ∧ 0 < 1) ∧
    16 = 16 - hello.length % 16 := ⟨⟨by decide, by decide, by decide, by decide, ⟨_, rfl⟩, by decide⟩, by decide⟩

/-- T1: one byte of A5's ciphertext changed, REF the message. -/
theorem witness_TamperingNeverPasses :
    ∃ t : State, helloRun.Inv ∧ helloRun.phase = .busy ∧ exec .cbcdec helloRun = .next t ∧ t.err = .none ∧
      0 < helloRun.inLen.toNat ∧ 0xA0 ≠ helloRun.inBuf.read 0 ∧ helloRun.refLen = t.outLen ∧
      helloRun.reference = t.output :=
  ⟨_, inv_helloRun, rfl, rfl, by decide +kernel, by decide, by decide, by decide +kernel, by decide +kernel⟩

theorem witness_ErrorPropagation :
    (hex 32 1).length = 16 * 2 ∧ key.length = 16 ∧ iv.length = 16 ∧ 0 < 16 * 2 ∧ 16 < 16 * 2 ∧ 16 / 16 ≠ 0 / 16 ∧
    16 = 0 + 16 ∧ 15 < 16 := by decide

theorem witness_FieldMultiplication :
    (0xAE : Byte) = xtime 0x57 ∧ (0x47 : Byte) = xtime 0xAE ∧ (0x8E : Byte) = xtime 0x47 := by decide

theorem witness_SboxIsTheAffineInverse :
    ((0x53 : Byte) ≠ 0 ∧ gmul 0x53 0xCA = 0x01) ∧ ((0 : Byte) = 0 ∧ (0 : Byte) = 0) ∧ sbox 0x53 = sbox 0x53 := by decide

theorem witness_KeyExpansionRecurrence :
    key.length = 16 ∧ (10 ≤ 10) ∧ (4 ≤ 4 ∧ 4 < 44) ∧ (4 ≤ 43 ∧ 43 < 44) ∧ (1 ≤ 9 ∧ 9 < 10) ∧
    ∃ t, t = keyWord (blockOf key) (4 - 1) := ⟨by decide, by decide, by decide, by decide, by decide, _, rfl⟩

theorem witness_InvShiftRowsMovesBytes : (hex 16 0x000102030405060708090a0b0c0d0e0f).length = 16 ∧ 15 < 16 := by decide

theorem witness_BlockDecryptIsABijection : (1 ≤ 1 ∧ 9 ≤ 9) ∧ 15 < 16 := by decide

theorem witness_InvMixColumnsIsLinearInverse : 3 < 4 ∧ ∃ s, s = (blockOf key).column 3 := ⟨by decide, _, rfl⟩

/-- M9, M6 and its mirror: a difference inside both, the output ending first, the reference ending first. -/
theorem witness_CompareFindsFirstDifference :
    (1 < min ([0x41, 0x42, 0x43] : List Byte).length ([0x41, 0x62, 0x43, 0x44] : List Byte).length ∧
      ([0x41, 0x42, 0x43] : List Byte).getD 1 0 ≠ ([0x41, 0x62, 0x43, 0x44] : List Byte).getD 1 0 ∧
      ∀ i, i < 1 → ([0x41, 0x42, 0x43] : List Byte).getD i 0 = ([0x41, 0x62, 0x43, 0x44] : List Byte).getD i 0) ∧
    (([0x41] : List Byte).length < ([0x41, 0x42] : List Byte).length ∧
      ∀ i, i < ([0x41] : List Byte).length →
        ([0x41] : List Byte).getD i 0 = ([0x41, 0x42] : List Byte).getD i 0 ∧
        ([0x41, 0x42] : List Byte).getD i 0 = ([0x41] : List Byte).getD i 0) := by decide

/-- X8, and X10 for the engine's error. -/
theorem witness_ComparatorWrites :
    (∃ s t u : State, s.phase = .busy ∧ s.refLen ≤ s.cap ∧ exec .xor s = .next u ∧ exec .xorV s = .next t ∧
      u.err = .none) ∧
    (∃ s t u : State, s.phase = .busy ∧ s.refLen ≤ s.cap ∧ exec .xor s = .next u ∧ exec .xorV s = .next t ∧
      u.err ≠ .none) ∧
    ∃ s t u : State, s.phase = .busy ∧ s.refLen ≤ s.cap ∧ exec .cbcdec s = .next u ∧ exec .cbcdecV s = .next t :=
  ⟨⟨running 257 [0x40, 0x40] [1, 2, 3] [] [0x41, 0x43], _, _, rfl, by decide, rfl, rfl, by decide⟩,
    ⟨running 257 [0x41, 0x42, 0x43] [1, 2] [] [0x40, 0x40, 0x43], _, _, rfl, by decide, rfl, rfl, by decide⟩,
    ⟨helloRun, _, _, rfl, by decide, rfl, rfl⟩⟩

/-- C5; and the word of `CLEAR`, which a state that no run reaches may hold. -/
theorem witness_ReservedWordCompletes :
    ((running 0x103 [] [] [] []).phase = .busy ∧ (running 0x103 [] [] [] []).lastCmd ≠ 0x00000001 ∧
      (running 0x103 [] [] [] []).lastCmd ≠ 0x00000101 ∧ (running 0x103 [] [] [] []).lastCmd ≠ 0x00000002 ∧
      (running 0x103 [] [] [] []).lastCmd ≠ 0x00000102) ∧
    ((running 3 [] [] [] []).phase = .busy ∧ (running 3 [] [] [] []).lastCmd ≠ 0x00000001 ∧
      (running 3 [] [] [] []).lastCmd ≠ 0x00000101 ∧ (running 3 [] [] [] []).lastCmd ≠ 0x00000002 ∧
      (running 3 [] [] [] []).lastCmd ≠ 0x00000102) := by
  decide

/-- L9 in small: an input one block above capacity. -/
theorem witness_CapacityCheck :
    ∃ s t : State, s.phase = .busy ∧ decode s.lastCmd = .ok .cbcdec ∧ Instr.cbcdec ≠ .clear ∧
      perform .engineComplete s = .next t ∧ t.err = .capacityExceeded :=
  ⟨{ lengths 32 16 16 0 with lastCmd := 2 }, _, rfl, rfl, by decide, rfl, by decide⟩

theorem witness_InsufficientKeyMaterialCause :
    (lengths 16 15 0 16).phase = .busy ∧ (lengths 16 15 0 16).kmLen < (lengths 16 15 0 16).inLen := by decide

theorem witness_CipherInputAndPaddingCauses :
    (lengths 15 16 16 0).phase = .busy ∧ (lengths 15 16 16 0).inLen.toNat % 16 ≠ 0 ∧ helloRun.phase = .busy := by decide

/-- X10, and X8 for the comparison that fails. -/
theorem witness_ErrorLeavesNoOutput :
    (∃ s t : State, s.phase = .busy ∧ perform .engineComplete s = .next t ∧ t.err ≠ .none ∧ t.err ≠ .mismatch) ∧
    ∃ s t : State, s.phase = .busy ∧ perform .engineComplete s = .next t ∧ t.err = .mismatch :=
  ⟨⟨running 257 [0x41, 0x42, 0x43] [1, 2] [] [], _, rfl, rfl, by decide, by decide⟩,
    ⟨running 257 [0x40, 0x40] [1, 2, 3] [] [0x41, 0x43], _, rfl, rfl, by decide⟩⟩

theorem witness_ErrorPriority :
    helloRun.phase = .busy ∧ false = decide (helloRun.lastCmd = 0x00000001 ∨ helloRun.lastCmd = 0x00000101) ∧
    false = decide (helloRun.lastCmd = 0x00000101 ∨ helloRun.lastCmd = 0x00000102) := by decide

theorem witness_LegalStatusWords :
    compared.Inv ∧ compared.phase = .done ∧ helloRun.Inv ∧ helloRun.phase = .busy :=
  ⟨inv_compared, rfl, inv_helloRun, rfl⟩

theorem witness_ResetMeetsInvariant : (16 : Word) ≤ 16 ∧ (16 : Word) ≤ 0xFFFFFFFF := by decide

theorem witness_StepKeepsInvariant :
    (∃ t, helloRun.Inv ∧ step helloRun = .next t) ∧ ∃ t, compared.Inv ∧ step compared = .next t :=
  ⟨⟨_, inv_helloRun, rfl⟩, ⟨_, inv_compared, rfl⟩⟩

/-- Two states that differ above the lengths, in OUT and in what stands in REF. -/
theorem witness_NoHiddenState :
    ∃ s s' t : State, s ≠ s' ∧ s.phase = .busy ∧ s'.phase = .busy ∧ s'.lastCmd = s.lastCmd ∧ s'.cap = s.cap ∧
      s'.inLen = s.inLen ∧ s'.kmLen = s.kmLen ∧ s'.ivLen = s.ivLen ∧ s'.refLen = s.refLen ∧
      s.inBuf.agree s.inLen.toNat s'.inBuf ∧ s.kmBuf.agree (max s.inLen.toNat 16) s'.kmBuf ∧
      s.ivBuf.agree 16 s'.ivBuf ∧ s.refBuf.agree s.refLen.toNat s'.refBuf ∧
      perform .engineComplete s = .next t ∧ s'.schedule = [.hostWriteReg 0 3, .hostReadReg 1] ++ .engineComplete :: [] ∧
      (∀ a ∈ [AgentStep.hostWriteReg 0 3, .hostReadReg 1], a ≠ .reset ∧ a ≠ .engineComplete) ∧
      s.lastCmd = 0x00000001 ∧ t.err = .none ∧
      [0].Perm (List.range ((s.inLen.toNat + 4 - 1) / 4)) :=
  ⟨running 1 [0x41, 0x42] [1, 2, 3] [] [],
    { running 1 [0x41, 0x42] [1, 2, 3] [] [] with
      inBuf := [(0, 0x41), (1, 0x42), (2, 0xDD)], refBuf := [(0, 0x11)], outBuf := [(5, 0x22)],
      schedule := [.hostWriteReg 0 3, .hostReadReg 1, .engineComplete] }, _,
    by decide, rfl, rfl, rfl, rfl, rfl, rfl, rfl, rfl, by decide, by decide, by decide, by decide, rfl,
    rfl, by decide, rfl, by decide, by decide⟩

end Sys2Proof.Tests
end

section
/-! SUPPORT. Register writes that are ignored, the fields of the STATUS word, and what each agent step leaves of `CAP`,
`LASTCMD` and the result fields (10_state.md sections 1 to 4). -/

namespace Sys2Proof.Machine

/-! ## Registers a host write leaves alone -/

/-- A write to a number that selects neither `CMD` nor a length register is ignored (44_control_ops.md R218). -/
theorem perform_hostWriteReg_ignored {n : Word}
    (h : ∀ r, RegName.ofNumber n = some r → r ≠ .cmd ∧ r ≠ .inLen ∧ r ≠ .kmLen ∧ r ≠ .ivLen ∧ r ≠ .refLen)
    (s : State) (w : Word) : perform (.hostWriteReg n w) s = .next s := by
  change hostWriteReg s n w = .next s
  unfold hostWriteReg
  split
  · rfl
  · split
    next hr => exact absurd rfl (h _ hr).1
    next r _ hr => rw [s.storeReg_self r w (h r hr).2]
    next => rfl

/-- Numbers 11 and above are unassigned (10_state.md R37). -/
theorem RegName.ofNumber_of_eleven_le {n : Word} (h : 11 ≤ n.toNat) : RegName.ofNumber n = none := by
  refine RegName.ofNumber_eq_none.2 fun r hr => ?_
  subst hr
  cases r <;> simp [RegName.number] at h

theorem State.readReg_of_eleven_le (s : State) {n : Word} (h : 11 ≤ n.toNat) : s.readReg n = 0 := by
  simp [State.readReg, RegName.ofNumber_of_eleven_le h]

/-! ## The STATUS word -/

/-- Two two-bit fields and a four-bit one, packed as STATUS packs them (10_state.md R24), are read back. -/
theorem extract_packed_fields (p v : BitVec 2) (e : BitVec 4) :
    let w : Word := p.setWidth 32 ||| (v.setWidth 32 <<< 2) ||| (e.setWidth 32 <<< 4)
    w.extractLsb' 0 2 = p ∧ w.extractLsb' 2 2 = v ∧ w.extractLsb' 4 4 = e ∧ w.extractLsb' 8 24 = 0 := by
  refine ⟨?_, ?_, ?_, ?_⟩
  all_goals
    refine BitVec.eq_of_getLsbD_eq fun i hi => ?_
    simp only [BitVec.getLsbD_extractLsb', BitVec.getLsbD_or, BitVec.getLsbD_shiftLeft, BitVec.getLsbD_setWidth]
    grind

/-! The values of `PHASE`, `VRES` and `ERR` fit the widths of their fields. -/

theorem Phase.setWidth_code (p : Phase) : (p.code.setWidth 2).setWidth 32 = p.code := by cases p <;> rfl

theorem Vres.setWidth_code (v : Vres) : (v.code.setWidth 2).setWidth 32 = v.code := by cases v <;> rfl

theorem Err.setWidth_code (e : Err) : (e.code.setWidth 4).setWidth 32 = e.code := by cases e <;> rfl

/-- The fields of the STATUS word (10_state.md R24). -/
theorem State.status_fields (s : State) :
    s.status.extractLsb' 0 2 = s.phase.code.setWidth 2 ∧ s.status.extractLsb' 2 2 = s.vres.code.setWidth 2 ∧
      s.status.extractLsb' 4 4 = s.err.code.setWidth 4 ∧ s.status.extractLsb' 8 24 = 0 := by
  have h := extract_packed_fields (s.phase.code.setWidth 2) (s.vres.code.setWidth 2) (s.err.code.setWidth 4)
  rwa [Phase.setWidth_code, Vres.setWidth_code, Err.setWidth_code] at h

/-! ## `CAP` and `LASTCMD` from one step to the next -/

@[simp] theorem State.hostWriteBuf_cap (s : State) (sp : Space) (i : Nat) (b : Byte) :
    (s.hostWriteBuf sp i b).cap = s.cap := by
  rcases s.hostWriteBuf_cases sp i b with ⟨-, h⟩ | ⟨-, -, -, h⟩ <;> simp [h]

@[simp] theorem State.hostWriteBuf_lastCmd (s : State) (sp : Space) (i : Nat) (b : Byte) :
    (s.hostWriteBuf sp i b).lastCmd = s.lastCmd := by
  rcases s.hostWriteBuf_cases sp i b with ⟨-, h⟩ | ⟨-, -, -, h⟩ <;> simp [h]

/-- No step of any agent changes the parameter `CAP` (10_state.md R36). -/
theorem perform_cap {s t : State} {a : AgentStep} (h : perform a s = .next t) : t.cap = s.cap := by
  rcases perform_cases h with ⟨n, w, -, hw⟩ | ⟨n, -, rfl⟩ | ⟨sp, i, b, -, rfl⟩ | ⟨sp, i, -, rfl⟩ | ⟨-, -, rfl⟩ |
    ⟨-, -, rfl⟩ | ⟨-, rfl⟩
  case inl =>
    rcases hostWriteReg_cases hw with ⟨-, rfl⟩ | ⟨-, -, -, rfl⟩ | ⟨-, -, -, rfl⟩ | ⟨-, -, r, -, -, rfl⟩ |
      ⟨-, -, -, rfl⟩ <;> simp
  all_goals simp

/-- A register write latches a word only as a START, and clears it only as `CLEAR` (10_state.md R35). -/
theorem hostWriteReg_lastCmd {s t : State} {n w : Word} (h : hostWriteReg s n w = .next t) :
    t.lastCmd = if s.phase ≠ .busy ∧ n = 0 then (if w = 0x00000003 then 0 else w) else s.lastCmd := by
  rcases hostWriteReg_cases h with ⟨hb, rfl⟩ | ⟨hb, hn, hw, rfl⟩ | ⟨hb, hn, hw, rfl⟩ | ⟨-, hn, r, -, -, rfl⟩ |
    ⟨-, hn, -, rfl⟩
  · rw [if_neg fun hc => hc.1 hb]
  · rw [if_pos ⟨hb, hn⟩, if_pos hw]; rfl
  · rw [if_pos ⟨hb, hn⟩, if_neg hw]; rfl
  · rw [if_neg fun hc => hn hc.2]; exact s.storeReg_lastCmd r w
  · rw [if_neg fun hc => hn hc.2]

/-- At the engine's step a latched command other than `CLEAR` runs (44_control_ops.md R221). -/
theorem engineComplete_of_decode {s : State} {i : Instr} (h : decode s.lastCmd = .ok i) (hi : i ≠ .clear) :
    engineComplete s = exec i s := by
  unfold engineComplete
  rw [h]
  cases i
  case clear => exact absurd rfl hi
  all_goals rfl

/-! ## The result fields from one step to the next -/

theorem State.start_resultsClear (s : State) (w : Word) : (s.start w).resultsClear := by
  simp [State.resultsClear]

theorem State.discard_resultsClear (s : State) : s.discard.resultsClear := by
  simp [State.resultsClear]

theorem State.KeepsResults.refl (s : State) : s.KeepsResults s := by constructor <;> simp

theorem State.answer_keepsResults (s : State) (r : Reply) : s.KeepsResults (s.answer r) := by constructor <;> simp

theorem State.storeReg_keepsResults (s : State) (r : RegName) (w : Word) : s.KeepsResults (s.storeReg r w) := by
  constructor <;> simp

theorem State.setBuf_keepsResults (s : State) {sp : Space} (h : sp ≠ .out) (m : Memory) :
    s.KeepsResults (s.setBuf sp m) := by
  constructor <;> simp [h]

theorem State.hostWriteBuf_keepsResults (s : State) (sp : Space) (i : Nat) (b : Byte) :
    s.KeepsResults (s.hostWriteBuf sp i b) := by
  rcases s.hostWriteBuf_cases sp i b with ⟨-, h⟩ | ⟨-, hsp, -, h⟩ <;> rw [h]
  · exact .refl s
  · exact s.setBuf_keepsResults hsp _

/-- A register write clears all results, as START or as `CLEAR`, or keeps them all (10_state.md R34). -/
theorem hostWriteReg_results {s t : State} {n w : Word} (h : hostWriteReg s n w = .next t) :
    if s.phase ≠ .busy ∧ n = 0 then t.resultsClear else s.KeepsResults t := by
  rcases hostWriteReg_cases h with ⟨hb, rfl⟩ | ⟨hb, hn, -, rfl⟩ | ⟨hb, hn, -, rfl⟩ | ⟨-, hn, r, -, -, rfl⟩ |
    ⟨-, hn, -, rfl⟩
  · rw [if_neg fun hc => hc.1 hb]; exact .refl t
  · rw [if_pos ⟨hb, hn⟩]; exact s.discard_resultsClear
  · rw [if_pos ⟨hb, hn⟩]; exact s.start_resultsClear w
  · rw [if_neg fun hc => hn hc.2]; exact s.storeReg_keepsResults r w
  · rw [if_neg fun hc => hn hc.2]; exact .refl t

/-- The output of a latched command fits the word of `OUT_LEN`. -/
theorem State.length_latchedResult_out_lt (s : State) : s.latchedResult.out.length < 2 ^ 32 :=
  s.latchedResult_fine.length_le.trans_lt s.inLen.isLt

theorem perform_engineComplete_of_busy {s : State} (h : s.phase = .busy) :
    perform .engineComplete s = .next (s.finish s.latchedResult) := by
  rw [show perform .engineComplete s = engineComplete s from rfl, engineComplete_eq, State.completeWith_busy h]

/-! ## The input buffers from one step to the next -/

/-- A register write other than `CLEAR` keeps every input buffer (10_state.md R41). -/
theorem hostWriteReg_buf {s t : State} {n w : Word} (h : hostWriteReg s n w = .next t)
    (hc : ¬ (n = 0 ∧ w = 0x00000003)) {sp : Space} (hsp : sp ≠ .out) : t.buf sp = s.buf sp := by
  rcases hostWriteReg_cases h with ⟨-, rfl⟩ | ⟨-, hn, hw, -⟩ | ⟨-, -, -, rfl⟩ | ⟨-, -, r, -, -, rfl⟩ | ⟨-, -, -, rfl⟩
  · rfl
  · exact absurd ⟨hn, hw⟩ hc
  · simp [hsp]
  · simp
  · rfl

end Sys2Proof.Machine
end

section
/-! The statements on registers, `LASTCMD`, results and inputs, settled. -/

namespace Sys2Proof.Machine

/-- Settles O13: a number from 11 up selects no register, so the read gives 0 and the write finds nothing to store to. -/
theorem unassignedRegistersReadZero : Obligations.UnassignedRegistersReadZero := by
  intro s n hn
  refine ⟨?_, perform_hostWriteReg_ignored (by simp [RegName.ofNumber_of_eleven_le hn]) s⟩
  simp [perform, s.readReg_of_eleven_le hn]

/-- Settles O10, by the three fields' values fitting the fields' widths. -/
theorem statusWordFields : Obligations.StatusWordFields := by
  intro s
  obtain ⟨hphase, hvres, herr, hzero⟩ := s.status_fields
  refine ⟨rfl, hphase.trans ?_, hvres.trans ?_, herr.trans ?_, hzero,
    perform_hostWriteReg_ignored (by simp [RegName.ofNumber]) s, by simp [State.doneLine], by simp [State.doneLine]⟩
  · cases s.phase <;> rfl
  · cases s.vres <;> rfl
  · cases s.err <;> rfl

/-- Settles O12: register 10 reads `CAP`, which every agent step keeps. -/
theorem capRegisterIsConstant : Obligations.CapRegisterIsConstant :=
  ⟨fun _ => rfl, fun s => ⟨rfl, perform_hostWriteReg_ignored (by simp [RegName.ofNumber]) s, fun _ _ => perform_cap⟩⟩

/-- Settles O23, by what each agent step leaves in `LASTCMD`. -/
theorem lastCommandIsLatched : Obligations.LastCommandIsLatched := by
  refine ⟨fun _ => rfl, fun s t a h => ?_, fun s i => engineComplete_of_decode, fun s hs => hs.lastCmd_not_clear⟩
  rcases perform_cases h with ⟨n, w, rfl, hw⟩ | ⟨n, rfl, rfl⟩ | ⟨sp, i, b, rfl, rfl⟩ | ⟨sp, i, rfl, rfl⟩ |
    ⟨rfl, -, rfl⟩ | ⟨rfl, -, rfl⟩ | ⟨rfl, rfl⟩
  case inl => exact hostWriteReg_lastCmd hw
  all_goals simp

/-- Settles O24: START, `CLEAR` and reset clear all results, completion writes them all with the latched command's
result, which no earlier result enters, and every other step keeps them. -/
theorem resultFieldsAreWrittenTogether : Obligations.ResultFieldsAreWrittenTogether := by
  intro s t a h
  rcases perform_cases h with ⟨n, w, rfl, hw⟩ | ⟨n, rfl, rfl⟩ | ⟨sp, i, b, rfl, rfl⟩ | ⟨sp, i, rfl, rfl⟩ |
    ⟨rfl, hb, rfl⟩ | ⟨rfl, hb, rfl⟩ | ⟨rfl, rfl⟩
  · exact hostWriteReg_results hw
  · exact s.answer_keepsResults _
  · exact s.hostWriteBuf_keepsResults sp i b
  · exact s.answer_keepsResults _
  · dsimp only
    rw [if_pos hb]
    exact ⟨s.finish_completed _ s.length_latchedResult_out_lt,
      fun _ _ _ _ _ _ => perform_engineComplete_of_busy hb⟩
  · dsimp only
    rw [if_neg hb]
    exact .refl t
  · exact s.discard_resultsClear

/-- Settles O25: of the steps left, a START and a completion replace OUT alone, and the others no buffer. -/
theorem inputsChangeOnlyByTheHost : Obligations.InputsChangeOnlyByTheHost := by
  intro s t a h hreset hbuf hclear sp hsp j
  rcases perform_cases h with ⟨n, w, rfl, hw⟩ | ⟨n, rfl, rfl⟩ | ⟨sp', i, b, rfl, -⟩ | ⟨sp', i, rfl, rfl⟩ |
    ⟨rfl, -, rfl⟩ | ⟨rfl, -, rfl⟩ | ⟨rfl, -⟩
  · rw [hostWriteReg_buf hw (by simpa using hclear) hsp]
  · simp
  · exact absurd rfl (hbuf sp' i b)
  · simp
  · exact (s.finish_keepsInputs _).bytes sp hsp j
  · rfl
  · exact absurd rfl hreset

end Sys2Proof.Machine
end

section
/-! SUPPORT. What a command's result depends on (10_state.md R50), the host's steps in phase BUSY
(70_reset_and_hazards.md R285), and the lanes of the XOR unit (40_otp_xor.md R115). -/

namespace Sys2Proof.Machine

/-! ## The operands of a command -/

/-- The same values in everything a command reads (30_encoding.md R90): the latched word, `CAP`, the length registers,
and the operand sequences. -/
structure State.SameOperands (s s' : State) : Prop where
  lastCmd   : s'.lastCmd = s.lastCmd
  cap       : s'.cap = s.cap
  inLen     : s'.inLen = s.inLen
  kmLen     : s'.kmLen = s.kmLen
  ivLen     : s'.ivLen = s.ivLen
  refLen    : s'.refLen = s.refLen
  input     : s'.input = s.input
  pad       : s'.pad = s.pad
  key       : s'.key = s.key
  ivBytes   : s'.ivBytes = s.ivBytes
  reference : s'.reference = s.reference

section
variable {s s' : State} (h : s.SameOperands s')
include h

theorem xorEngine_congr : xorEngine s' = xorEngine s := by
  simp only [xorEngine, h.kmLen, h.inLen, h.input, h.pad]

theorem cbcEngine_congr : cbcEngine s' = cbcEngine s := by
  have hlen : s'.cipherLengthsOk = s.cipherLengthsOk := by
    simp only [State.cipherLengthsOk, h.kmLen, h.ivLen, h.inLen]
  rw [cbcEngine, cbcEngine, hlen, h.input, h.key, h.ivBytes]

theorem State.commandResult_congr (x v : Bool) {engine : State → Except Err (List Byte)}
    (he : engine s' = engine s) : s'.commandResult x v engine = s.commandResult x v engine := by
  have hcap : s'.overCapacity x v = s.overCapacity x v := by
    simp only [State.overCapacity, h.cap, h.inLen, h.kmLen, h.refLen]
  rw [State.commandResult, State.commandResult, hcap, h.reference, he]

/-- A command's result is a function of its operands. -/
theorem State.latchedResult_congr : s'.latchedResult = s.latchedResult := by
  simp only [State.latchedResult, h.lastCmd, State.commandResult_congr h _ _ (xorEngine_congr h),
    State.commandResult_congr h _ _ (cbcEngine_congr h)]

end

/-- Completions with one result leave the same results, in whatever states. -/
theorem State.finish_keepsResults (s s' : State) (r : Result) : (s.finish r).KeepsResults (s'.finish r) := by
  constructor <;> simp

/-! ## The host's steps before the engine's -/

/-- A step of the host in phase BUSY changes nothing but what it was answered (70_reset_and_hazards.md R285). -/
theorem perform_host_of_busy {s : State} {a : AgentStep} (hb : s.phase = .busy)
    (ha : a ≠ .reset ∧ a ≠ .engineComplete) : ∃ r, perform a s = .next { s with replies := r } := by
  cases a with
  | hostWriteReg n w => exact ⟨s.replies, if_pos hb⟩
  | hostReadReg n => exact ⟨_, rfl⟩
  | hostWriteBuf sp i b => exact ⟨s.replies, congrArg _ (if_pos hb)⟩
  | hostReadBuf sp i => exact ⟨_, rfl⟩
  | engineComplete => exact absurd rfl ha.2
  | reset => exact absurd rfl ha.1

theorem step_of_schedule {s : State} {a : AgentStep} {l : List AgentStep} (h : s.schedule = a :: l) :
    step s = perform a (s.withSchedule l) := by
  simp only [step, advance, h]

theorem core_run_succ {s t : State} (h : step s = .next t) (k : Nat) : core.run (k + 1) s = core.run k t := by
  simp only [Host.Core.run, show core.step s = .next t from h]

/-- Whatever host steps are scheduled before the engine's, the command completes with the result it had at first. -/
theorem core_run_to_completion {l l' : List AgentStep} {s : State} (hb : s.phase = .busy)
    (hl : ∀ a ∈ l, a ≠ .reset ∧ a ≠ .engineComplete) (hs : s.schedule = l ++ .engineComplete :: l') :
    ∃ r, core.run (l.length + 1) s =
      .next ({ s with schedule := l', replies := r }.finish s.latchedResult) := by
  induction l generalizing s with
  | nil =>
    refine ⟨s.replies, ?_⟩
    rw [core_run_succ ((step_of_schedule hs).trans (perform_engineComplete_of_busy hb))]
    rfl
  | cons a l ih =>
    obtain ⟨r, hr⟩ := perform_host_of_busy (s := s.withSchedule (l ++ .engineComplete :: l')) hb (hl a (by simp))
    rw [List.length_cons, core_run_succ ((step_of_schedule hs).trans hr)]
    exact ih hb (fun b hbl => hl b (by simp [hbl])) rfl

/-! ## The lanes of the XOR unit -/

/-- A byte read after a list of writes that all put the bytes of one sequence at their indices. -/
theorem Memory.read_foldl_write (y : List Byte) {ws : List (Nat × Byte)} (hws : ∀ c ∈ ws, y[c.1]? = some c.2)
    {m : Memory} (hm : m.wf) :
    (ws.foldl (fun m c => m.write c.1 c.2) m).wf ∧
    ∀ i, (ws.foldl (fun m c => m.write c.1 c.2) m).read i =
      if i ∈ ws.map Prod.fst then y.getD i 0 else m.read i := by
  induction ws generalizing m with
  | nil => simpa using hm
  | cons c ws ih =>
    obtain ⟨hwf, hread⟩ := ih (fun d hd => hws d (by simp [hd])) (Memory.write_wf hm c.1 c.2)
    refine ⟨hwf, fun i => ?_⟩
    have hc : y.getD c.1 0 = c.2 := by simp [List.getD_eq_getElem?_getD, hws c (by simp)]
    rw [List.foldl_cons, hread, Memory.read_write hm, List.map_cons]
    by_cases hi : i ∈ ws.map Prod.fst
    · simp [hi]
    · by_cases hic : i = c.1 <;> simp_all

/-- Writes that put exactly the bytes of a sequence, in whatever order and however often, leave that sequence. -/
theorem Memory.foldl_write_eq_ofBytes {y : List Byte} {ws : List (Nat × Byte)}
    (hws : ∀ c, c ∈ ws ↔ y[c.1]? = some c.2) :
    ws.foldl (fun m c => Memory.write m c.1 c.2) [] = Memory.ofBytes y := by
  obtain ⟨hwf, hread⟩ := Memory.read_foldl_write y (fun c => (hws c).1) Memory.wf_nil
  refine Memory.ext_of_wf hwf (Memory.ofBytes_wf y) fun i => ?_
  rw [hread, Memory.read_ofBytes]
  split
  next => rfl
  next hi =>
    have hnone : y[i]? = none := Option.eq_none_iff_forall_ne_some.2 fun b hb =>
      hi (List.mem_map.2 ⟨(i, b), (hws _).2 hb, rfl⟩)
    simp [List.getD_eq_getElem?_getD, hnone]

/-- A group of lanes writes the bytes of the transform whose indices lie in the group. -/
theorem mem_laneWrites {lanes g : Nat} {x k : List Byte} {c : Nat × Byte} :
    c ∈ laneWrites lanes g x k ↔ g ≤ c.1 ∧ c.1 < g + lanes ∧ (xorTransform x k)[c.1]? = some c.2 := by
  obtain ⟨i, b⟩ := c
  simp only [laneWrites, List.mem_filterMap, List.mem_range, xorTransform, List.getElem?_zipWith]
  constructor
  · rintro ⟨j, hj, h⟩
    split at h
    next a e hx hk =>
      obtain ⟨rfl, rfl⟩ : g + j = i ∧ a ^^^ e = b := by simpa using h
      simp [hx, hk, hj]
    next => simp at h
  · rintro ⟨hg, hi, h⟩
    obtain ⟨j, rfl⟩ := Nat.exists_eq_add_of_le hg
    refine ⟨j, by omega, ?_⟩
    cases hx : x[g + j]? <;> cases hk : k[g + j]? <;> simp_all

/-- OUT is the transform, for every number of lanes and every order of the groups (40_otp_xor.md R115). -/
theorem xorByLanes_eq_ofBytes {lanes : Nat} {order : List Nat} {x : List Byte} (k : List Byte) (hlanes : 1 ≤ lanes)
    (horder : order.Perm (List.range ((x.length + lanes - 1) / lanes))) :
    xorByLanes lanes order x k = Memory.ofBytes (xorTransform x k) := by
  refine Memory.foldl_write_eq_ofBytes fun c => ?_
  simp only [List.mem_flatMap, horder.mem_iff, List.mem_range, mem_laneWrites]
  constructor
  · rintro ⟨q, -, -, -, h⟩
    exact h
  · intro h
    have hlen : c.1 < x.length := by
      have := (List.getElem?_eq_some_iff.1 h).1
      simp only [xorTransform, List.length_zipWith] at this
      omega
    have hdiv := Nat.div_add_mod' c.1 lanes
    have hmod := Nat.mod_lt c.1 hlanes
    refine ⟨c.1 / lanes, ?_, by omega, by omega, h⟩
    calc c.1 / lanes < c.1 / lanes + 1 := Nat.lt_succ_self _
      _ = (c.1 + lanes) / lanes := (Nat.add_div_right _ hlanes).symm
      _ ≤ (x.length + lanes - 1) / lanes := Nat.div_le_div_right (by omega)

/-- `XOR` and `XOR.V` without an error before the comparison put out the transform (40_otp_xor.md R111, R112). -/
theorem State.commandResult_xor_out {s : State} {v : Bool}
    (h : (s.commandResult true v xorEngine).err = .none ∨ (s.commandResult true v xorEngine).err = .mismatch) :
    (s.commandResult true v xorEngine).out = xorTransform s.input s.pad := by
  obtain ⟨r, hr, hcause, herr, -⟩ := s.commandResult_cases true v (xorEngine_ok s)
  rw [hr] at h ⊢
  cases r with
  | error k =>
    obtain ⟨hnone, hmismatch, -⟩ := herr k rfl
    exact absurd h (by simp [Result.failed, hnone, hmismatch])
  | ok out =>
    rw [judge_out]
    rcases hcause with ⟨-, hok⟩ | ⟨-, hok⟩
    · cases hok
    · rcases xorEngine_cases s with ⟨-, hx⟩ | ⟨-, hx, -⟩
      · rw [hx] at hok; cases hok
      · rw [hx] at hok; exact Except.ok.inj hok

/-- The two words of the XOR unit. -/
theorem State.latchedResult_of_xor {s : State} (h : s.lastCmd = 0x00000001 ∨ s.lastCmd = 0x00000101) :
    ∃ v, s.latchedResult = s.commandResult true v xorEngine := by
  rcases h with h | h
  · exact ⟨false, by unfold State.latchedResult; rw [h]; rfl⟩
  · exact ⟨true, by unfold State.latchedResult; rw [h]; rfl⟩

end Sys2Proof.Machine
end

section
/-! The statement on hidden state, settled. -/

namespace Sys2Proof.Machine

/-- Settles O59: the result is a function of the operands, which the host's steps in phase BUSY keep, and the lanes
write exactly the bytes of the transform. -/
theorem noHiddenState : Obligations.NoHiddenState := by
  intro s s' t hb hb' hcmd hcap hin hkm hiv href hinBuf hkmBuf hivBuf hrefBuf ht
  have hops : s.SameOperands s' := {
    lastCmd   := hcmd
    cap       := hcap
    inLen     := hin
    kmLen     := hkm
    ivLen     := hiv
    refLen    := href
    input     := by rw [State.input, State.input, hin, Memory.bytes_congr hinBuf]
    pad       := by
      rw [State.pad, State.pad, hin, Memory.bytes_congr fun a ha => hkmBuf a (lt_max_of_lt_left ha)]
    key       := (Memory.bytes_congr fun a ha => hkmBuf a (lt_max_of_lt_right ha)).symm
    ivBytes   := (Memory.bytes_congr hivBuf).symm
    reference := by rw [State.reference, State.reference, href, Memory.bytes_congr hrefBuf] }
  have hresult : s'.latchedResult = s.latchedResult := State.latchedResult_congr hops
  obtain rfl : s.finish s.latchedResult = t := by
    simpa [perform_engineComplete_of_busy hb] using ht
  refine ⟨⟨_, perform_engineComplete_of_busy hb', ?_⟩, fun l l' hl hs => ?_,
    fun lanes order hxor herr hlanes horder => ?_⟩
  · rw [hresult]
    exact s.finish_keepsResults s' _
  · obtain ⟨r, hr⟩ := core_run_to_completion hb' hl hs
    rw [hresult] at hr
    exact ⟨_, hr, s.finish_keepsResults _ _, rfl⟩
  · obtain ⟨v, hv⟩ := State.latchedResult_of_xor hxor
    rw [hv] at herr ⊢
    rw [State.finish_outBuf, State.commandResult_xor_out herr,
      xorByLanes_eq_ofBytes s.pad hlanes (by rwa [State.length_input])]

end Sys2Proof.Machine
end

section
/-! SUPPORT. What the buffers hold after a host's write of one byte, and what the host's reads return of OUT
(20_memory.md R62, R63). -/

namespace Sys2Proof.Machine

/-! ## A host's write of one byte -/

/-- Every byte of every buffer after `HostWriteBuf(S, i, b)` (20_memory.md R62). -/
theorem State.read_hostWriteBuf {s : State} {sp : Space} (hwf : (s.buf sp).wf) (i : Nat) (b : Byte) (sp' : Space)
    (j : Nat) :
    ((s.hostWriteBuf sp i b).buf sp').read j =
      if s.phase ≠ .busy ∧ sp ≠ .out ∧ i < s.size sp ∧ sp' = sp ∧ j = i then b else (s.buf sp').read j := by
  rcases s.hostWriteBuf_cases sp i b with ⟨hignored, h⟩ | ⟨hb, hsp, hi, h⟩
  · rw [h, if_neg]
    rintro ⟨hb, hsp, hi, -⟩
    rcases hignored with hbusy | hout | hsize
    · exact hb hbusy
    · exact hsp hout
    · exact absurd hi (Nat.not_lt.2 hsize)
  · rw [h, State.setBuf_buf]
    by_cases hsp' : sp' = sp
    · simp [hsp', Memory.read_write hwf, hb, hsp, hi]
    · simp [hsp']

/-- A new buffer in an input space changes nothing but the four input buffers. -/
theorem State.setBuf_input_frame (s : State) {sp : Space} (h : sp ≠ .out) (m : Memory) :
    { s.setBuf sp m with inBuf := s.inBuf, kmBuf := s.kmBuf, ivBuf := s.ivBuf, refBuf := s.refBuf } = s := by
  cases sp
  case out => exact absurd rfl h
  all_goals rfl

/-- The host's write of a byte changes nothing but the four input buffers. -/
theorem State.hostWriteBuf_frame (s : State) (sp : Space) (i : Nat) (b : Byte) :
    { s.hostWriteBuf sp i b with
      inBuf := s.inBuf, kmBuf := s.kmBuf, ivBuf := s.ivBuf, refBuf := s.refBuf } = s := by
  rcases s.hostWriteBuf_cases sp i b with ⟨-, h⟩ | ⟨-, hsp, -, h⟩ <;> rw [h]
  exact s.setBuf_input_frame hsp _

/-! ## A host's read of one byte -/

/-- An answer to the host does not show in a later read (20_memory.md R63). -/
@[simp] theorem State.readBuf_answer (s : State) (r : Reply) (sp : Space) (i : Nat) :
    (s.answer r).readBuf sp i = s.readBuf sp i := by
  simp only [State.readBuf, State.answer_buf, State.size_congr (s.answer_cap r)]

/-- Outside phase DONE the results are clear, by R55 (b) and (c). -/
theorem State.Inv.resultsClear_of_not_done {s : State} (hs : s.Inv) (h : s.phase ≠ .done) : s.resultsClear := by
  cases hp : s.phase with
  | idle => exact (hs.idle_clear hp).1
  | busy => exact hs.busy_clear hp
  | done => exact absurd hp h

/-- OUT is 0x00 at and above `OUT_LEN`, and everywhere outside phase DONE. -/
theorem State.Inv.read_outBuf_eq_zero {s : State} (hs : s.Inv) {i : Nat}
    (h : s.outLen.toNat ≤ i ∨ s.phase ≠ .done) : s.outBuf.read i = 0 := by
  rcases h with hi | hp
  · exact Memory.read_of_endsBy hs.out_ends hi
  · obtain ⟨-, -, -, hempty, -, -⟩ := hs.resultsClear_of_not_done hp
    rw [hempty, Memory.read_nil]

end Sys2Proof.Machine
end

section
/-! The statements on the host's buffer accesses, settled. -/

namespace Sys2Proof.Machine

/-- Settles O14, by the write's one changed byte and its frame. -/
theorem hostWriteBuffer : Obligations.HostWriteBuffer := by
  intro s sp i b hwf
  exact ⟨_, rfl, State.read_hostWriteBuf hwf i b, s.hostWriteBuf_frame sp i b⟩

/-- Settles O15: a read only hands out its answer, which the next read does not see, and the invariant empties OUT at
and above `OUT_LEN` and outside phase DONE. -/
theorem hostReadBuffer : Obligations.HostReadBuffer := by
  intro s sp i
  refine ⟨_, _, s.readBuf sp i, rfl, rfl, rfl, rfl, ?_, rfl, ?_⟩
  · simp
  · rintro hs rfl hout
    rw [State.readBuf, State.buf_out, hs.read_outBuf_eq_zero hout, ite_self]

end Sys2Proof.Machine
end

section
/-! SUPPORT. The decoder and the encoder are inverse to each other (30_encoding.md R92, R94). -/

namespace Sys2Proof

/-- The decoder takes the word of a command back to the command. -/
@[simp] theorem decode_encode (i : Instr) : decode (encode i) = .ok i := by
  cases i <;> rfl

/-- A word that decodes to a command is the command's own word: its fields are the command's, and they make up the
word. -/
theorem eq_encode_of_decode {w : Word} {i : Instr} (h : decode w = .ok i) : w = encode i :=
  calc w = (Fields.ofWord w).word := (Fields.word_ofWord w).symm
    _ = i.fields.word := by rw [fields_of_decode h]
    _ = encode i := rfl

/-- The decoder is an equality test on the word (30_encoding.md R92). -/
theorem decode_eq_ok_iff {w : Word} {i : Instr} : decode w = .ok i ↔ w = encode i :=
  ⟨eq_encode_of_decode, fun h => h ▸ decode_encode i⟩

end Sys2Proof
end

section
/-! The statement on the command words, settled. -/

namespace Sys2Proof

/-- Settles O1: the five words are the encoder's, and decoding inverts it. -/
theorem commandWordsAreExactlyTheTable : Obligations.CommandWordsAreExactlyTheTable :=
  ⟨by decide, fun _ _ => decode_eq_ok_iff⟩

end Sys2Proof
end

section
/-! SUPPORT. The result of a command as its checks are passed one after another (44_control_ops.md R223), and the XOR
transform byte by byte (40_otp_xor.md R110, R116). -/

namespace Sys2Proof.Machine

/-! ## The transform -/

/-- The transform is as long as its input, given pad enough. -/
theorem length_xorTransform {x k : List Byte} (h : x.length ≤ k.length) :
    (xorTransform x k).length = x.length := by
  simp [xorTransform, h]

/-- The same pad twice gives the input back (40_otp_xor.md R116). -/
theorem xorTransform_xorTransform {p k : List Byte} (h : p.length ≤ k.length) :
    xorTransform (xorTransform p k) k = p := by
  have hlen := length_xorTransform h
  refine List.ext_getElem ((length_xorTransform (hlen.trans_le h)).trans hlen) fun i _ _ => ?_
  simp [xorTransform]

/-- The transform of an input and a pad that stand in two buffers. -/
theorem xorTransform_bytes (m m' : Memory) (n : Nat) :
    xorTransform (m.bytes n) (m'.bytes n) = (List.range n).map fun i => m.read i ^^^ m'.read i := by
  simp [xorTransform, Memory.bytes, List.zipWith_map, List.zipWith_self]

/-! ## The checks before the comparison -/

theorem State.overCapacity_eq_false_iff (s : State) (x v : Bool) :
    s.overCapacity x v = false ↔
      s.inLen ≤ s.cap ∧ (x = true → s.kmLen ≤ s.cap) ∧ (v = true → s.refLen ≤ s.cap) := by
  simp [State.overCapacity, and_assoc, ← BitVec.not_lt]

theorem State.commandResult_of_overCapacity {s : State} {x v : Bool} (h : s.overCapacity x v = true)
    (engine : State → Except Err (List Byte)) :
    s.commandResult x v engine = Result.failed v .capacityExceeded := by
  rw [State.commandResult, if_pos h, judge_error]

theorem State.commandResult_of_fits {s : State} {x v : Bool} (h : s.overCapacity x v = false)
    (engine : State → Except Err (List Byte)) :
    s.commandResult x v engine = judge v s.reference (engine s) := by
  rw [State.commandResult, h, if_neg Bool.false_ne_true]

theorem xorEngine_of_short {s : State} (h : s.kmLen < s.inLen) :
    xorEngine s = .error .insufficientKeyMaterial := if_pos h

theorem xorEngine_of_enough {s : State} (h : s.inLen ≤ s.kmLen) :
    xorEngine s = .ok (xorTransform s.input s.pad) := if_neg (BitVec.not_lt.2 h)

/-- `XOR` ends without an error exactly when the lengths pass both checks (40_otp_xor.md R111). -/
theorem State.commandResult_xor_err_eq_none_iff (s : State) :
    (s.commandResult true false xorEngine).err = .none ↔
      s.inLen ≤ s.cap ∧ s.kmLen ≤ s.cap ∧ s.inLen ≤ s.kmLen := by
  cases hc : s.overCapacity true false with
  | true =>
    have hfits := (not_congr (s.overCapacity_eq_false_iff true false)).1 (by simp [hc])
    rw [State.commandResult_of_overCapacity hc]
    simp only [Result.failed]
    tauto
  | false =>
    obtain ⟨hin, hkm, -⟩ := (s.overCapacity_eq_false_iff true false).1 hc
    rw [State.commandResult_of_fits hc]
    rcases xorEngine_cases s with ⟨hshort, hx⟩ | ⟨henough, hx, -⟩
    · simp [hx, Result.failed, hin, hkm, hshort]
    · simp [hx, hin, hkm, BitVec.not_lt.1 henough]

/-! ## What the completions leave -/

theorem exec_xor_of_busy {s : State} (h : s.phase = .busy) :
    exec .xor s = .next (s.finish (s.commandResult true false xorEngine)) :=
  State.completeWith_busy h fun s => s.commandResult true false xorEngine

theorem exec_xorV_of_busy {s : State} (h : s.phase = .busy) :
    exec .xorV s = .next (s.finish (s.commandResult true true xorEngine)) :=
  State.completeWith_busy h fun s => s.commandResult true true xorEngine

/-- The writes of an error (60_exceptions.md R246). -/
theorem State.finish_failed (s : State) (v : Bool) (k : Err) : (s.finish (.failed v k)).Failed k v :=
  s.finish_completed _ (by simp [Result.failed])

/-- The writes of a comparison: its index fits the register, as it is at most the length of the output
(43_verify_compare.md R204). -/
theorem State.finish_judged (s : State) {out : List Byte} (h : out.length < 2 ^ 32) (ref : List Byte) :
    (s.finish ((compareBytes out ref).result out)).Judged out (compareBytes out ref) := by
  have hdone := s.finish_completed ((compareBytes out ref).result out) (by simpa using h)
  cases hv : compareBytes out ref with
  | pass => rwa [hv] at hdone
  | fail d e a =>
    have hd : (BitVec.ofNat 32 d).toNat = d := by
      have := (compareBytesFrom_index hv).2
      exact Nat.mod_eq_of_lt (by omega)
    rw [hv] at hdone
    simpa only [Verdict.result, State.Judged, State.CompletedWith, hd] using hdone

/-- What `XOR` and `XOR.V` leave when a check fails, in the order of the checks (40_otp_xor.md R111, R112). -/
theorem State.finish_xor_errors (s : State) (v : Bool) :
    (s.overCapacity true v = true → (s.finish (s.commandResult true v xorEngine)).Failed .capacityExceeded v) ∧
    (s.overCapacity true v = false → s.kmLen < s.inLen →
      (s.finish (s.commandResult true v xorEngine)).Failed .insufficientKeyMaterial v) := by
  refine ⟨fun hc => ?_, fun hc hshort => ?_⟩
  · rw [State.commandResult_of_overCapacity hc]
    exact s.finish_failed v _
  · rw [State.commandResult_of_fits hc, xorEngine_of_short hshort]
    exact s.finish_failed v _

/-- Past the checks, the exclusive-ors go to the comparison (40_otp_xor.md R111, R112). -/
theorem State.commandResult_xor_ok {s : State} {v : Bool} (hc : s.overCapacity true v = false)
    (hkm : s.inLen ≤ s.kmLen) :
    s.commandResult true v xorEngine =
      judge v s.reference (.ok ((List.range s.inLen.toNat).map fun i => s.inBuf.read i ^^^ s.kmBuf.read i)) := by
  rw [State.commandResult_of_fits hc, xorEngine_of_enough hkm, State.input, State.pad, xorTransform_bytes]

end Sys2Proof.Machine
end

section
/-! The statements on the OTP XOR unit, settled. -/

namespace Sys2Proof.Machine

/-- Settles O27: the transform pairs the two sequences index by index and ends with the shorter one. -/
theorem xorTransformBytes : Obligations.XorTransformBytes := by
  intro x k h
  refine ⟨length_xorTransform h, fun i hi => ?_, ?_⟩
  · rw [List.getD_eq_getElem _ _ hi, List.getD_eq_getElem _ _ (hi.trans_le h),
      List.getD_eq_getElem _ _ (by rwa [length_xorTransform h])]
    simp [xorTransform]
  · rw [xorTransform, xorTransform, List.zipWith_eq_zipWith_take_min (l₁ := x) (l₂ := k), min_eq_left h,
      List.take_length]

/-- Settles O28, by the result after each check; the output is as long as IN_LEN says, so it fits OUT_LEN. -/
theorem xorCommand : Obligations.XorCommand := by
  intro s hb
  obtain ⟨hcapacity, hshort⟩ := s.finish_xor_errors false
  refine ⟨_, exec_xor_of_busy hb, s.finish_keepsInputs _, fun hover => hcapacity ?_,
    fun hin hkm => hshort ?_, fun hin hkm hpad => ?_⟩
  · simpa [State.overCapacity_iff] using hover
  · simp [State.overCapacity_eq_false_iff, hin, hkm]
  · rw [State.commandResult_xor_ok (by simp [State.overCapacity_eq_false_iff, hin, hkm]) hpad]
    exact s.finish_completed _ (by simp [s.inLen.isLt])

/-- Settles O29: as for `XOR`, and the verdict is that of the comparison of the same output with REF. -/
theorem xorVerifyCommand : Obligations.XorVerifyCommand := by
  intro s hb
  obtain ⟨hcapacity, hshort⟩ := s.finish_xor_errors true
  refine ⟨_, exec_xorV_of_busy hb, s.finish_keepsInputs _, fun hover => hcapacity ?_,
    fun hin hkm href => hshort ?_, ?_⟩
  · simpa [State.overCapacity_iff] using hover
  · simp [State.overCapacity_eq_false_iff, hin, hkm, href]
  · rintro hin hkm href hpad _ rfl
    rw [State.commandResult_xor_ok (by simp [State.overCapacity_eq_false_iff, hin, hkm, href]) hpad, judge_verify]
    exact s.finish_judged (by simp [s.inLen.isLt]) s.reference

/-- Settles O31: the second run passes the same checks and puts out the transform of the first run's output under the
same pad. -/
theorem xorIsAnInvolution : Obligations.XorIsAnInvolution := by
  refine ⟨fun p k => xorTransform_xorTransform, fun s t s' t' hb ht herr hb' hin hkm hcap hinBuf hkmBuf ht' => ?_⟩
  obtain rfl : s.finish (s.commandResult true false xorEngine) = t := by simpa [exec_xor_of_busy hb] using ht
  obtain rfl : s'.finish (s'.commandResult true false xorEngine) = t' := by simpa [exec_xor_of_busy hb'] using ht'
  have herr' : (s'.commandResult true false xorEngine).err = .none := by
    rw [State.commandResult_xor_err_eq_none_iff, hin, hkm, hcap]
    exact s.commandResult_xor_err_eq_none_iff.1 herr
  have hlen : (xorTransform s.input s.pad).length = s.inLen.toNat := by
    rw [length_xorTransform (by simp), State.length_input]
  have hinput : s'.input = xorTransform s.input s.pad := by
    rw [State.input, hin, Memory.bytes_congr hinBuf, State.finish_outBuf, State.commandResult_xor_out (.inl herr),
      ← hlen, Memory.bytes_ofBytes]
  have hpad : s'.pad = s.pad := by rw [State.pad, hin, Memory.bytes_congr hkmBuf, State.pad]
  have hout : (s'.commandResult true false xorEngine).out = s.input := by
    rw [State.commandResult_xor_out (.inl herr'), hinput, hpad, xorTransform_xorTransform (by simp)]
  refine ⟨herr', by simp [hout], fun i hi => ?_⟩
  rw [State.finish_outBuf, hout, Memory.read_ofBytes, State.input, Memory.getD_bytes _ hi]

end Sys2Proof.Machine
end

section
/-! SUPPORT. The CBC commands check by check (41_aes_cbc_decrypt.md R130, R131, R137). -/

namespace Sys2Proof.Machine

/-! ## The engine's answers -/

theorem cbcEngine_of_bad_lengths {s : State}
    (h : ¬(s.kmLen = 16 ∧ s.ivLen = 16 ∧ s.inLen.toNat % 16 = 0 ∧ s.inLen ≠ 0)) :
    cbcEngine s = .error .invalidCipherInput :=
  if_neg (mt s.cipherLengthsOk_iff.1 h)

theorem cbcEngine_of_unpad_none {s : State} (hl : s.cipherLengthsOk = true)
    (h : unpad (cbcRaw s.input s.key s.ivBytes) = none) : cbcEngine s = .error .invalidPadding := by
  rw [cbcEngine, if_pos hl, h]

theorem cbcEngine_of_unpad_some {s : State} (hl : s.cipherLengthsOk = true) {out : List Byte}
    (h : unpad (cbcRaw s.input s.key s.ivBytes) = some out) : cbcEngine s = .ok out := by
  rw [cbcEngine, if_pos hl, h]

/-- An output of the CBC unit is no longer than its input, so `OUT_LEN` can say its length. -/
theorem length_lt_of_cbcEngine_ok {s : State} {out : List Byte} (h : cbcEngine s = .ok out) :
    out.length < 2 ^ 32 := by
  have hle : EngineOk s (cbcEngine s) := cbcEngine_ok s
  rw [h] at hle
  exact lt_of_le_of_lt hle s.inLen.isLt

/-! ## What the completions leave -/

theorem exec_cbcdec_of_busy {s : State} (h : s.phase = .busy) :
    exec .cbcdec s = .next (s.finish (s.commandResult false false cbcEngine)) :=
  State.completeWith_busy h fun s => s.commandResult false false cbcEngine

theorem exec_cbcdecV_of_busy {s : State} (h : s.phase = .busy) :
    exec .cbcdecV s = .next (s.finish (s.commandResult false true cbcEngine)) :=
  State.completeWith_busy h fun s => s.commandResult false true cbcEngine

/-- An error of the engine is what its command completes with, past the capacity check (60_exceptions.md R246, R247). -/
theorem State.finish_engine_error {s : State} {x v : Bool} {engine : State → Except Err (List Byte)} {k : Err}
    (hc : s.overCapacity x v = false) (he : engine s = .error k) :
    (s.finish (s.commandResult x v engine)).Failed k v := by
  rw [State.commandResult_of_fits hc, he, judge_error]
  exact s.finish_failed v k

/-- What `CBCDEC` and `CBCDEC.V` leave when a check fails, in the order of the checks (41_aes_cbc_decrypt.md R130,
R137). -/
theorem State.finish_cbc_errors (s : State) (v : Bool) :
    (s.overCapacity false v = true → (s.finish (s.commandResult false v cbcEngine)).Failed .capacityExceeded v) ∧
    (s.overCapacity false v = false →
      ¬(s.kmLen = 16 ∧ s.ivLen = 16 ∧ s.inLen.toNat % 16 = 0 ∧ s.inLen ≠ 0) →
      (s.finish (s.commandResult false v cbcEngine)).Failed .invalidCipherInput v) ∧
    (s.overCapacity false v = false → s.cipherLengthsOk = true →
      unpad (cbcRaw s.input s.key s.ivBytes) = none →
      (s.finish (s.commandResult false v cbcEngine)).Failed .invalidPadding v) := by
  refine ⟨fun hc => ?_, fun hc hl => State.finish_engine_error hc (cbcEngine_of_bad_lengths hl),
    fun hc hl hu => State.finish_engine_error hc (cbcEngine_of_unpad_none hl hu)⟩
  rw [State.commandResult_of_overCapacity hc]
  exact s.finish_failed v _

/-- Without verification a valid padding completes the command with the plaintext (41_aes_cbc_decrypt.md R130). -/
theorem State.finish_cbcdec_ok {s : State} {out : List Byte} (hc : s.overCapacity false false = false)
    (hl : s.cipherLengthsOk = true) (hu : unpad (cbcRaw s.input s.key s.ivBytes) = some out) :
    (s.finish (s.commandResult false false cbcEngine)).Completed .none .none out 0 ⟨none, none⟩ := by
  have he : cbcEngine s = .ok out := cbcEngine_of_unpad_some hl hu
  rw [State.commandResult_of_fits hc, he, judge_plain]
  exact s.finish_completed _ (length_lt_of_cbcEngine_ok he)

/-- With verification the plaintext is compared with REF (41_aes_cbc_decrypt.md R137). -/
theorem State.finish_cbcdecV_ok {s : State} {out : List Byte} (hc : s.overCapacity false true = false)
    (hl : s.cipherLengthsOk = true) (hu : unpad (cbcRaw s.input s.key s.ivBytes) = some out) :
    (s.finish (s.commandResult false true cbcEngine)).Judged out (compareBytes out s.reference) := by
  have he : cbcEngine s = .ok out := cbcEngine_of_unpad_some hl hu
  rw [State.commandResult_of_fits hc, he, judge_verify]
  exact s.finish_judged (length_lt_of_cbcEngine_ok he) s.reference

end Sys2Proof.Machine
end

section
/-! The statements on the completion of the CBC commands, settled. -/

namespace Sys2Proof.Machine

/-- Settles O32, by the result after each check. -/
theorem cbcDecryptCommand : Obligations.CbcDecryptCommand := by
  intro s hb
  have hfits (hin : s.inLen ≤ s.cap) : s.overCapacity false false = false := by
    simp [State.overCapacity_eq_false_iff, hin]
  obtain ⟨hcapacity, hlengths, hpadding⟩ := s.finish_cbc_errors false
  refine ⟨_, exec_cbcdec_of_busy hb, s.finish_keepsInputs _, fun hover => hcapacity ?_,
    fun hin => hlengths (hfits hin), fun hin hkm hiv hmod hne => ?_⟩
  · simpa [State.overCapacity_iff] using hover
  · have hl : s.cipherLengthsOk = true := s.cipherLengthsOk_iff.2 ⟨hkm, hiv, hmod, hne⟩
    split
    next hu => exact hpadding (hfits hin) hl hu
    next out hu => exact State.finish_cbcdec_ok (hfits hin) hl hu

/-- Settles O33: as for `CBCDEC`, with `REF_LEN` in the capacity check and the verdict of the comparison with REF. -/
theorem cbcDecryptVerifyCommand : Obligations.CbcDecryptVerifyCommand := by
  intro s hb
  have hfits (hin : s.inLen ≤ s.cap) (href : s.refLen ≤ s.cap) : s.overCapacity false true = false := by
    simp [State.overCapacity_eq_false_iff, hin, href]
  obtain ⟨hcapacity, hlengths, hpadding⟩ := s.finish_cbc_errors true
  refine ⟨_, exec_cbcdecV_of_busy hb, s.finish_keepsInputs _, fun hover => hcapacity ?_,
    fun hin href => hlengths (hfits hin href), fun hin href hkm hiv hmod hne => ?_⟩
  · simpa [State.overCapacity_iff] using hover
  · have hl : s.cipherLengthsOk = true := s.cipherLengthsOk_iff.2 ⟨hkm, hiv, hmod, hne⟩
    split
    next hu => exact hpadding (hfits hin href) hl hu
    next out hu => exact State.finish_cbcdecV_ok (hfits hin href) hl hu

end Sys2Proof.Machine
end

section
/-! SUPPORT. Padding and its removal (41_aes_cbc_decrypt.md R135, R139). -/

namespace Sys2Proof.Machine

/-- The last `p` elements of a sequence, counted from its end. -/
theorem all_drop_iff {l : List Byte} {p : Nat} (hp : p ≤ l.length) (f : Byte → Bool) :
    (l.drop (l.length - p)).all f = true ↔ ∀ j, 1 ≤ j → j ≤ p → f (l.getD (l.length - j) 0) = true := by
  rw [List.all_eq_true, List.forall_mem_iff_forall_getElem]
  simp only [List.length_drop, List.getElem_drop]
  constructor
  · intro h j h1 hj
    rw [List.getD_eq_getElem _ _ (by omega)]
    convert h (p - j) (by omega) using 3
    omega
  · intro h i hi
    have hj := h (p - i) (by omega) (by omega)
    rw [List.getD_eq_getElem _ _ (by omega)] at hj
    convert hj using 3
    omega

/-- `Unpad` as one condition on the last byte and the bytes before it (41_aes_cbc_decrypt.md R135). -/
theorem unpad_eq {raw : List Byte} {p : Nat} (hraw : 16 ≤ raw.length) (hp : p = (raw.getD (raw.length - 1) 0).toNat) :
    unpad raw = if 1 ≤ p ∧ p ≤ 16 ∧ ∀ j, 1 ≤ j → j ≤ p → (raw.getD (raw.length - j) 0).toNat = p then
      some (raw.take (raw.length - p)) else none := by
  have hlast : (raw.getLastD 0).toNat = p := by
    rw [hp, List.getLastD_eq_getLast?, List.getLast?_eq_getElem?, List.getD_eq_getElem?_getD]
  have htail : (1 ≤ p ∧ p ≤ 16 ∧ (raw.drop (raw.length - p)).all (fun b => b.toNat = p) = true) ↔
      (1 ≤ p ∧ p ≤ 16 ∧ ∀ j, 1 ≤ j → j ≤ p → (raw.getD (raw.length - j) 0).toNat = p) :=
    and_congr_right fun _ => and_congr_right fun h16 => by
      simp only [all_drop_iff (h16.trans hraw), decide_eq_true_eq]
  simp only [unpad, hlast, Config.blockBytes, htail]

/-- A sequence that ends in `p` bytes of value `p` is unpadded to what stands before them. -/
theorem unpad_append_replicate (m : List Byte) {p : Nat} (h1 : 1 ≤ p) (h16 : p ≤ 16) :
    unpad (m ++ List.replicate p (BitVec.ofNat 8 p)) = some m := by
  have hval : (BitVec.ofNat 8 p).toNat = p := Nat.mod_eq_of_lt (by omega)
  have hlast : ((m ++ List.replicate p (BitVec.ofNat 8 p)).getLastD 0).toNat = p := by
    obtain ⟨q, rfl⟩ : ∃ q, p = q + 1 := ⟨p - 1, by omega⟩
    rw [List.replicate_succ', ← List.append_assoc, List.getLastD_concat, hval]
  simp only [unpad, hlast]
  simp [Config.blockBytes, h1, h16, hval]

/-- Padding and unpadding gives the message back (41_aes_cbc_decrypt.md R139). -/
theorem unpad_pad (m : List Byte) : unpad (pad m) = some m := by
  have hmod : m.length % 16 < 16 := Nat.mod_lt _ (by decide)
  exact unpad_append_replicate m (show 1 ≤ 16 - m.length % 16 by omega) (show 16 - m.length % 16 ≤ 16 by omega)

/-- A padded message is a positive number of whole blocks long. -/
theorem length_pad (m : List Byte) : (pad m).length = 16 * (m.length / 16 + 1) := by
  simp only [pad, Config.blockBytes, List.length_append, List.length_replicate]
  omega

end Sys2Proof.Machine
end

section
/-! The statement on padding, settled. -/

namespace Sys2Proof.Machine

/-- Settles O35: the condition of `unpad_eq` holds or fails. -/
theorem unpadStripsPadding : Obligations.UnpadStripsPadding := by
  intro n raw p hlen hn hp
  have h := unpad_eq (p := p) (hlen ▸ by omega) (hlen ▸ hp)
  rw [hlen] at h
  exact ⟨fun hvalid => h.trans (if_pos hvalid), fun hbad => h.trans (if_neg hbad)⟩

end Sys2Proof.Machine
end

section
/-! SUPPORT. Blocks as byte sequences (42_aes128_inverse_cipher.md R160) and the two chains block by block
(41_aes_cbc_decrypt.md R132, R134; 42 R176). -/

namespace Sys2Proof.Machine

/-! ## Blocks and bytes -/

@[simp] theorem blockOf_bytes_append (b : Block) (l : List Byte) : blockOf (b.bytes ++ l) = b := rfl

@[simp] theorem drop_bytes_append (b : Block) (l : List Byte) : (b.bytes ++ l).drop 16 = l := rfl

theorem getD_bytes_blockOf (l : List Byte) {j : Nat} (hj : j < 16) : (blockOf l).bytes.getD j 0 = l.getD j 0 := by
  interval_cases j <;> rfl

theorem getD_bytes_xor (x y : Block) {j : Nat} (hj : j < 16) :
    (x.xor y).bytes.getD j 0 = x.bytes.getD j 0 ^^^ y.bytes.getD j 0 := by
  interval_cases j <;> rfl

@[simp] theorem bytesOf_cons (b : Block) (bs : List Block) : bytesOf (b :: bs) = b.bytes ++ bytesOf bs := rfl

/-- Byte `j` of block `k` stands at index `16 * k + j`. -/
theorem getD_bytesOf {bs : List Block} {k j : Nat} (hk : k < bs.length) (hj : j < 16) :
    (bytesOf bs).getD (16 * k + j) 0 = bs[k].bytes.getD j 0 := by
  induction bs generalizing k with
  | nil => exact absurd hk (Nat.not_lt_zero k)
  | cons b bs ih =>
    cases k with
    | zero => rw [Nat.mul_zero, Nat.zero_add]; exact List.getD_append _ _ _ _ (by rwa [length_blockBytes])
    | succ k =>
      rw [bytesOf_cons, List.getD_append_right _ _ _ _ (by simp; omega), length_blockBytes,
        show 16 * (k + 1) + j - 16 = 16 * k + j by omega]
      exact ih (Nat.lt_of_succ_lt_succ hk)

@[simp] theorem getElem_blocksOf (ct : List Byte) {k : Nat} (hk : k < (blocksOf ct).length) :
    (blocksOf ct)[k] = blockOf (ct.drop (16 * k)) := by
  simp [blocksOf, Config.blockBytes]

/-- The first block of a sequence, and the blocks of the rest. -/
theorem blocksOf_bytes_append (b : Block) (l : List Byte) : blocksOf (b.bytes ++ l) = b :: blocksOf l := by
  refine List.ext_getElem (by simp) fun k _ _ => ?_
  cases k with
  | zero => simp
  | succ k => simp [Nat.mul_add, ← List.drop_drop, Nat.add_comm _ 16]

/-- Writing blocks out as bytes and reading them back changes nothing. -/
@[simp] theorem blocksOf_bytesOf (bs : List Block) : blocksOf (bytesOf bs) = bs := by
  induction bs with
  | nil => rfl
  | cons b bs ih => rw [bytesOf_cons, blocksOf_bytes_append, ih]

/-- Whole blocks of bytes, read as blocks and written out again. -/
theorem bytesOf_blocksOf {l : List Byte} (h : l.length % 16 = 0) : bytesOf (blocksOf l) = l := by
  refine List.ext_getElem (by simp; omega) fun i hi hi' => ?_
  rw [← List.getD_eq_getElem _ 0 hi, ← List.getD_eq_getElem _ 0 hi', ← Nat.div_add_mod i 16]
  have hk : i / 16 < (blocksOf l).length := by rw [length_blocksOf]; omega
  have hj : i % 16 < 16 := Nat.mod_lt _ (by decide)
  rw [getD_bytesOf hk hj, getElem_blocksOf, getD_bytes_blockOf _ hj]
  simp [List.getD_eq_getElem?_getD]

/-! ## The chains -/

/-- Block `k` of the chain: the decrypted block and the ciphertext block before it, `prev` before the first. -/
theorem getElem_cbcChain (rk : List Block) (prev : Block) {cs : List Block} {k : Nat} (hk : k < cs.length) :
    (cbcChain rk prev cs)[k]'(by simpa using hk) = (decryptWith rk cs[k]).xor ((prev :: cs)[k]'(by simp; omega)) := by
  induction cs generalizing prev k with
  | nil => exact absurd hk (Nat.not_lt_zero k)
  | cons c cs ih =>
    cases k with
    | zero => rfl
    | succ k => exact ih c (Nat.lt_of_succ_lt_succ hk)

theorem Block.xor_xor_cancel (x y : Block) : (x.xor y).xor y = x := by
  simp [Block.xor, Column.xor]

/-- Where the block cipher is inverted, so is the chain. -/
theorem cbcChain_cbcEncryptChain {rk : List Block} (h : ∀ p, decryptWith rk (encryptWith rk p) = p) (prev : Block)
    (xs : List Block) : cbcChain rk prev (cbcEncryptChain rk prev xs) = xs := by
  induction xs generalizing prev with
  | nil => rfl
  | cons x xs ih => rw [cbcEncryptChain, cbcChain, h, Block.xor_xor_cancel, ih]

end Sys2Proof.Machine
end

section
/-! The statement on the chain, settled. -/

namespace Sys2Proof.Machine

/-- Settles O34: block `k` of the chain, read byte by byte; before it stands ciphertext block `k - 1`, or the IV. -/
theorem cbcRawChainsBlocks : Obligations.CbcRawChainsBlocks := by
  intro n ct key iv hct _ _ _
  refine ⟨by rw [length_cbcRaw, hct]; omega, fun k j hk hj => ?_⟩
  have hkc : k < (blocksOf ct).length := by rw [length_blocksOf, hct]; omega
  rw [cbcRaw, getD_bytesOf (by simpa using hkc) hj, getElem_cbcChain _ _ hkc, getD_bytes_xor _ _ hj, getElem_blocksOf,
    blockDecrypt]
  congr 1
  cases k with
  | zero => exact getD_bytes_blockOf iv hj
  | succ k =>
    rw [List.getElem_cons_succ, getElem_blocksOf, getD_bytes_blockOf _ hj]
    simp [List.getD_eq_getElem?_getD]

end Sys2Proof.Machine
end

section
/-! SUPPORT. The inverse cipher undoes the reference cipher (42_aes128_inverse_cipher.md R174), transformation by
transformation. -/

namespace Sys2Proof.Machine

/-! ## Multiplication and MixColumns are linear -/

/-- Choosing terms by the exclusive-or of two conditions adds up to the two choices apart. -/
theorem foldl_select_xor (l : List Nat) (term : Nat → Byte) (p q : Nat → Bool) (u v : Byte) :
    l.foldl (fun acc i => if (p i ^^ q i) then acc ^^^ term i else acc) (u ^^^ v) =
      l.foldl (fun acc i => if p i then acc ^^^ term i else acc) u ^^^
        l.foldl (fun acc i => if q i then acc ^^^ term i else acc) v := by
  induction l generalizing u v with
  | nil => rfl
  | cons i l ih =>
    simp only [List.foldl_cons, ← ih]
    congr 1
    cases p i <;> cases q i <;> simp
    · ac_rfl
    · ac_rfl
    · calc u ^^^ v = u ^^^ v ^^^ (term i ^^^ term i) := by simp
        _ = u ^^^ term i ^^^ (v ^^^ term i) := by ac_rfl

/-- `gmul` is additive in its second factor (42_aes128_inverse_cipher.md R162). -/
theorem gmul_xor (a b c : Byte) : gmul a (b ^^^ c) = gmul a b ^^^ gmul a c := by
  simp only [gmul, BitVec.getLsbD_xor]
  exact foldl_select_xor (List.range 8) (fun i => xtimes i a) b.getLsbD c.getLsbD 0 0

theorem mixColumn_xor (x y : Column) : mixColumn (x.xor y) = (mixColumn x).xor (mixColumn y) := by
  simp only [mixColumn, Column.xor, gmul_xor, Column.mk.injEq]
  refine ⟨?_, ?_, ?_, ?_⟩ <;> ac_rfl

theorem invMixColumn_xor (x y : Column) : invMixColumn (x.xor y) = (invMixColumn x).xor (invMixColumn y) := by
  simp only [invMixColumn, Column.xor, gmul_xor, Column.mk.injEq]
  refine ⟨?_, ?_, ?_, ?_⟩ <;> ac_rfl

/-! ## The products of MixColumns and InvMixColumns in powers of `xtime` (42_aes128_inverse_cipher.md R162) -/

theorem gmul_two (a : Byte) : gmul 0x02 a = xtime a := by
  revert a; decide

theorem gmul_three (a : Byte) : gmul 0x03 a = xtime a ^^^ a := by
  revert a; decide

theorem gmul_nine (a : Byte) : gmul 0x09 a = xtime (xtime (xtime a)) ^^^ a := by
  revert a; decide

theorem gmul_eleven (a : Byte) : gmul 0x0B a = xtime (xtime (xtime a)) ^^^ xtime a ^^^ a := by
  revert a; decide

theorem gmul_thirteen (a : Byte) : gmul 0x0D a = xtime (xtime (xtime a)) ^^^ xtime (xtime a) ^^^ a := by
  revert a; decide

theorem gmul_fourteen (a : Byte) : gmul 0x0E a = xtime (xtime (xtime a)) ^^^ xtime (xtime a) ^^^ xtime a := by
  revert a; decide

theorem xtime_xor (a b : Byte) : xtime (a ^^^ b) = xtime a ^^^ xtime b := by
  simpa only [gmul_two] using gmul_xor 2 a b

/-! ## Each transformation of the inverse cipher undoes one of the reference cipher -/

theorem byte_xor_left_comm (a b c : Byte) : a ^^^ (b ^^^ c) = b ^^^ (a ^^^ c) := by ac_rfl

/-- On a column with one byte that may be nonzero, in powers of `xtime`: the byte itself is left, and every other power
stands an even number of times (42_aes128_inverse_cipher.md R170, R175). -/
theorem invMixColumn_mixColumn_single (a : Byte) :
    invMixColumn (mixColumn ⟨a, 0, 0, 0⟩) = ⟨a, 0, 0, 0⟩ ∧ invMixColumn (mixColumn ⟨0, a, 0, 0⟩) = ⟨0, a, 0, 0⟩ ∧
    invMixColumn (mixColumn ⟨0, 0, a, 0⟩) = ⟨0, 0, a, 0⟩ ∧ invMixColumn (mixColumn ⟨0, 0, 0, a⟩) = ⟨0, 0, 0, a⟩ := by
  have hzero : xtime 0 = 0 := rfl
  refine ⟨?_, ?_, ?_, ?_⟩ <;>
    simp only [invMixColumn, mixColumn, gmul_two, gmul_three, gmul_nine, gmul_eleven, gmul_thirteen, gmul_fourteen,
      xtime_xor, hzero] <;>
    simp [BitVec.xor_assoc, BitVec.xor_comm, byte_xor_left_comm]

/-- InvMixColumns undoes MixColumns: both are additive, and a column is the sum of its four bytes
(42_aes128_inverse_cipher.md R170). -/
theorem invMixColumn_mixColumn (s : Column) : invMixColumn (mixColumn s) = s := by
  have hsum : s = (Column.xor ⟨s.b0, 0, 0, 0⟩ ⟨0, s.b1, 0, 0⟩).xor (Column.xor ⟨0, 0, s.b2, 0⟩ ⟨0, 0, 0, s.b3⟩) := by
    simp [Column.xor]
  obtain ⟨h0, -⟩ := invMixColumn_mixColumn_single s.b0
  obtain ⟨-, h1, -⟩ := invMixColumn_mixColumn_single s.b1
  obtain ⟨-, -, h2, -⟩ := invMixColumn_mixColumn_single s.b2
  obtain ⟨-, -, -, h3⟩ := invMixColumn_mixColumn_single s.b3
  rw [hsum]
  simp only [mixColumn_xor, invMixColumn_xor, h0, h1, h2, h3]

theorem invSbox_sbox (a : Byte) : invSbox (sbox a) = a := by
  revert a; decide

theorem invMixColumns_mixColumns (b : Block) : invMixColumns (mixColumns b) = b := by
  simp [invMixColumns, mixColumns, Block.mapColumns, invMixColumn_mixColumn]

theorem invSubBytes_subBytes (b : Block) : invSubBytes (subBytes b) = b := by
  simp [invSubBytes, subBytes, Block.mapColumns, Column.map, invSbox_sbox]

theorem invShiftRows_shiftRows (b : Block) : invShiftRows (shiftRows b) = b := rfl

theorem invSubBytes_invShiftRows (b : Block) : invSubBytes (invShiftRows (shiftRows (subBytes b))) = b := by
  rw [invShiftRows_shiftRows, invSubBytes_subBytes]

theorem addRoundKey_addRoundKey (b k : Block) : addRoundKey (addRoundKey b k) k = b := Block.xor_xor_cancel b k

/-! ## The rounds -/

/-- A decryption round takes one encryption round back; both stand between the same two halves of a round, ShiftRows
after SubBytes. -/
theorem decryptRound_encryptRound (st k : Block) :
    decryptRound (shiftRows (subBytes (encryptRound st k))) k = shiftRows (subBytes st) := by
  rw [decryptRound, invSubBytes_invShiftRows, encryptRound, addRoundKey_addRoundKey, invMixColumns_mixColumns]

/-- Any sequence of encryption rounds is taken back by the decryption rounds in reverse. -/
theorem foldl_decryptRound_reverse (rk : List Block) (l : List Nat) (st : Block) :
    l.reverse.foldl (fun st r => decryptRound st (roundKey rk r))
        (shiftRows (subBytes (l.foldl (fun st r => encryptRound st (roundKey rk r)) st))) =
      shiftRows (subBytes st) := by
  induction l generalizing st with
  | nil => rfl
  | cons r l ih =>
    simp only [List.reverse_cons, List.foldl_append, List.foldl_cons, List.foldl_nil, ih]
    exact decryptRound_encryptRound st (roundKey rk r)

/-- The inverse cipher undoes the reference cipher, whatever the round keys (42_aes128_inverse_cipher.md R174). -/
theorem decryptWith_encryptWith (rk : List Block) (p : Block) : decryptWith rk (encryptWith rk p) = p := by
  have hrounds := foldl_decryptRound_reverse rk [1, 2, 3, 4, 5, 6, 7, 8, 9] (addRoundKey p (roundKey rk 0))
  simp only [decryptWith, encryptWith, addRoundKey_addRoundKey]
  rw [show [9, 8, 7, 6, 5, 4, 3, 2, 1] = [1, 2, 3, 4, 5, 6, 7, 8, 9].reverse from rfl, hrounds, invSubBytes_invShiftRows,
    addRoundKey_addRoundKey]

end Sys2Proof.Machine
end

section
/-! SUPPORT. The chain and the padding undo the reference encryptor (41_aes_cbc_decrypt.md R139). -/

namespace Sys2Proof.Machine

/-- The chained decryption undoes the reference encryptor on whole blocks (42_aes128_inverse_cipher.md R176). -/
theorem cbcRaw_cbcEncryptRaw {x : List Byte} (h : x.length % 16 = 0) (key iv : List Byte) :
    cbcRaw (cbcEncryptRaw x key iv) key iv = x := by
  rw [cbcRaw, cbcEncryptRaw, blocksOf_bytesOf, cbcChain_cbcEncryptChain (decryptWith_encryptWith _), bytesOf_blocksOf h]

/-- Removing the padding from the decrypted reference ciphertext gives the message (41_aes_cbc_decrypt.md R139). -/
theorem unpad_cbcRaw_cbcEncrypt (m key iv : List Byte) : unpad (cbcRaw (cbcEncrypt m key iv) key iv) = some m := by
  rw [cbcEncrypt, cbcRaw_cbcEncryptRaw (by rw [length_pad]; omega), unpad_pad]

/-- The reference ciphertext is a positive number of whole blocks long. -/
theorem length_cbcEncrypt (m key iv : List Byte) : (cbcEncrypt m key iv).length = 16 * (m.length / 16 + 1) := by
  rw [cbcEncrypt, length_cbcEncryptRaw, length_pad]
  omega

/-- A buffer that agrees with a sequence byte by byte reads as that sequence. -/
theorem Memory.bytes_eq {m : Memory} {l : List Byte} (h : ∀ i, i < l.length → m.read i = l.getD i 0) :
    m.bytes l.length = l := by
  refine List.ext_getElem (by simp) fun i _ hi => ?_
  rw [Memory.getElem_bytes, h i hi, List.getD_eq_getElem _ _ hi]

end Sys2Proof.Machine
end

section
/-! The statement on the round trip, settled. -/

namespace Sys2Proof.Machine

/-- Settles O37: the operands are the reference ciphertext, the key and the IV, the lengths pass every check, and the
chain undoes the encryptor. -/
theorem cbcRoundTrip : Obligations.CbcRoundTrip := by
  intro s m key iv hkey hiv hcap hb hlen hkm hivLen hinBuf hkmBuf hivBuf
  have hin : s.inLen.toNat = 16 * (m.length / 16 + 1) := hlen.trans (length_cbcEncrypt m key iv)
  have hinput : s.input = cbcEncrypt m key iv := by
    rw [State.input, hlen, Memory.bytes_eq (hlen ▸ hinBuf)]
  have hkeyBytes : s.key = key := by
    rw [State.key, Config.keyBytes, ← hkey, Memory.bytes_eq (hkey ▸ hkmBuf)]
  have hivBytes : s.ivBytes = iv := by
    rw [State.ivBytes, Config.ivBytes, ← hiv, Memory.bytes_eq (hiv ▸ hivBuf)]
  have hfits : s.overCapacity false false = false := by
    simp only [State.overCapacity_eq_false_iff, BitVec.le_def, hin]
    exact ⟨by omega, by simp, by simp⟩
  have hlengths : s.cipherLengthsOk = true :=
    s.cipherLengthsOk_iff.2 ⟨hkm, hivLen, by omega, fun h0 => by simp [h0] at hin⟩
  refine ⟨_, exec_cbcdec_of_busy hb, State.finish_cbcdec_ok hfits hlengths ?_⟩
  rw [hinput, hkeyBytes, hivBytes, unpad_cbcRaw_cbcEncrypt]

end Sys2Proof.Machine
end

section
/-! SUPPORT. Bytes as the field GF(2^8) (42_aes128_inverse_cipher.md R161, R162): every byte is made from 1 by
`xtime` and exclusive-or, `gmul` goes past `xtime` on either side, and its laws follow. -/

namespace Sys2Proof.Machine

/-! ## Multiplication by the bits of the second factor -/

theorem xtimes_eq_iterate (i : Nat) (a : Byte) : xtimes i a = xtime^[i] a := by
  induction i with
  | zero => rfl
  | succ i ih => rw [xtimes, ih, Function.iterate_succ_apply']

/-- Adding up the chosen terms from the left, or choosing them first and adding them up from the right. -/
theorem foldl_select_eq_foldr_filter (l : List Nat) (term : Nat → Byte) (p : Nat → Bool) (u : Byte) :
    l.foldl (fun acc i => if p i then acc ^^^ term i else acc) u =
      u ^^^ (l.filter p).foldr (fun i acc => term i ^^^ acc) 0 := by
  induction l generalizing u with
  | nil => simp
  | cons i l ih =>
    rw [List.foldl_cons, ih]
    cases hi : p i
    · simp [hi]
    · simp [hi, BitVec.xor_assoc]

theorem gmul_eq_foldr_filter (a b : Byte) :
    gmul a b = ((List.range 8).filter fun i => b.getLsbD i).foldr (fun i acc => xtime^[i] a ^^^ acc) 0 := by
  simp only [gmul, xtimes_eq_iterate]
  exact (foldl_select_eq_foldr_filter (List.range 8) (fun i => xtime^[i] a) b.getLsbD 0).trans BitVec.zero_xor

@[simp] theorem gmul_zero (a : Byte) : gmul a 0 = 0 := rfl

@[simp] theorem gmul_one (a : Byte) : gmul a 1 = a := BitVec.zero_xor

theorem one_gmul (a : Byte) : gmul 1 a = a := by
  revert a; decide

/-! ## Induction over bytes -/

/-- A byte is the exclusive-or of the powers of 2 its bits choose, so an additive claim is proved on the powers. -/
theorem byte_induction_powers {P : Byte → Prop} (power : ∀ i < 8, P (xtime^[i] 1))
    (xor : ∀ b c, P b → P c → P (b ^^^ c)) (b : Byte) : P b := by
  have hzero : P 0 := xor 1 1 (power 0 (by decide)) (power 0 (by decide))
  have hsum : ∀ l : List Nat, (∀ i ∈ l, i < 8) → P (l.foldr (fun i acc => xtime^[i] 1 ^^^ acc) 0) := by
    intro l hl
    induction l with
    | nil => exact hzero
    | cons i l ih =>
      rw [List.forall_mem_cons] at hl
      exact xor _ _ (power i hl.1) (ih hl.2)
  rw [← one_gmul b, gmul_eq_foldr_filter]
  exact hsum _ fun i hi => List.mem_range.1 (List.mem_filter.1 hi).1

/-- The same with the powers made one from another: 1, doubling and exclusive-or reach every byte. -/
theorem byte_induction {P : Byte → Prop} (one : P 1) (double : ∀ b, P b → P (xtime b))
    (xor : ∀ b c, P b → P c → P (b ^^^ c)) (b : Byte) : P b := by
  refine byte_induction_powers (fun i _ => ?_) xor b
  induction i with
  | zero => exact one
  | succ i ih => rw [Function.iterate_succ_apply']; exact double _ (ih (by omega))

/-! ## The laws -/

/-- The one place where the reduction by 0x11B enters: the eighth power of `xtime` is a product with 0x1B. -/
theorem gmul_reduction (a : Byte) : gmul a 0x1B = xtime (xtimes 7 a) := by
  revert a; decide

theorem gmul_power (a : Byte) {i : Nat} (hi : i < 8) : gmul a (xtime^[i] 1) = xtimes i a := by
  interval_cases i <;> exact BitVec.zero_xor

/-- `gmul` goes past `xtime` in its second factor: on the power `i` of `xtime` both sides are power `i + 1`. -/
theorem gmul_xtime (a b : Byte) : gmul a (xtime b) = xtime (gmul a b) := by
  induction b using byte_induction_powers with
  | power i hi =>
    rw [gmul_power a hi, ← Function.iterate_succ_apply' xtime]
    obtain hi7 | rfl : i < 7 ∨ i = 7 := by omega
    · rw [gmul_power a (Nat.succ_lt_succ hi7), xtimes]
    · exact gmul_reduction a
  | xor b c hb hc => rw [xtime_xor, gmul_xor, hb, hc, gmul_xor, xtime_xor]

theorem xtime_gmul (a b : Byte) : gmul (xtime a) b = xtime (gmul a b) := by
  induction b using byte_induction with
  | one => rw [gmul_one, gmul_one]
  | double b hb => rw [gmul_xtime, hb, gmul_xtime]
  | xor b c hb hc => rw [gmul_xor, hb, hc, gmul_xor, xtime_xor]

/-- `gmul` is additive in its first factor too. -/
theorem xor_gmul (a b c : Byte) : gmul (a ^^^ b) c = gmul a c ^^^ gmul b c := by
  induction c using byte_induction with
  | one => simp only [gmul_one]
  | double c hc => simp only [gmul_xtime, hc, xtime_xor]
  | xor c d hc hd =>
    simp only [gmul_xor, hc, hd]
    ac_rfl

theorem gmul_comm (a b : Byte) : gmul a b = gmul b a := by
  induction b using byte_induction with
  | one => rw [gmul_one, one_gmul]
  | double b hb => rw [gmul_xtime, xtime_gmul, hb]
  | xor b c hb hc => rw [gmul_xor, xor_gmul, hb, hc]

theorem gmul_assoc (a b c : Byte) : gmul (gmul a b) c = gmul a (gmul b c) := by
  induction c using byte_induction with
  | one => rw [gmul_one, gmul_one]
  | double c hc => rw [gmul_xtime, hc, gmul_xtime, gmul_xtime]
  | xor c d hc hd => rw [gmul_xor, hc, hd, gmul_xor, gmul_xor]

/-- A byte has at most one inverse. -/
theorem gmul_inverse_unique {a b c : Byte} (hb : gmul a b = 1) (hc : gmul a c = 1) : b = c := by
  calc b = gmul b (gmul a c) := by rw [hc, gmul_one]
    _ = gmul (gmul a b) c := by rw [gmul_comm a b, gmul_assoc]
    _ = c := by rw [hb, one_gmul]

end Sys2Proof.Machine
end

section
/-! The statement on multiplication, settled. -/

namespace Sys2Proof.Machine

/-- Settles O40: the laws by induction over bytes, the four products and the examples from their own lemmas. -/
theorem fieldMultiplication : Obligations.FieldMultiplication := by
  refine ⟨gmul_eq_foldr_filter, gmul_comm, gmul_assoc, gmul_xor, fun a => ⟨gmul_one a, gmul_zero a⟩, ?_,
    by decide, by decide, by decide, by decide, by decide⟩
  rintro a _ _ _ rfl rfl rfl
  exact ⟨gmul_nine a, gmul_eleven a, gmul_thirteen a, gmul_fourteen a⟩

end Sys2Proof.Machine
end

section
/-! SUPPORT. The substitution tables against the field (42_aes128_inverse_cipher.md R163, R164). -/

namespace Sys2Proof.Machine

/-- The affine map of the S-box (42_aes128_inverse_cipher.md R163). -/
def affine (b : Byte) : Byte :=
  b ^^^ b.rotateLeft 1 ^^^ b.rotateLeft 2 ^^^ b.rotateLeft 3 ^^^ b.rotateLeft 4 ^^^ 0x63

/-- The map that undoes `affine` (`affine_affineInverse`). -/
def affineInverse (c : Byte) : Byte := c.rotateLeft 1 ^^^ c.rotateLeft 3 ^^^ c.rotateLeft 6 ^^^ 0x05

theorem affine_affineInverse (c : Byte) : affine (affineInverse c) = c := by
  revert c; decide

/-- Each entry of the table, taken back through the affine map, is the inverse of its index. -/
theorem gmul_affineInverse_sbox {a : Byte} (ha : a ≠ 0) : gmul a (affineInverse (sbox a)) = 1 := by
  revert a; decide

theorem affineInverse_sbox_zero : affineInverse (sbox 0) = 0 := rfl

theorem sbox_invSbox (a : Byte) : sbox (invSbox a) = a := by
  revert a; decide

theorem sbox_ne_self (a : Byte) : sbox a ≠ a := by
  revert a; decide

end Sys2Proof.Machine
end

section
/-! The statements on the substitution tables, settled. -/

namespace Sys2Proof.Machine

/-- Settles O41: the entry of `a`, taken back through the affine map, is the one inverse of `a`. -/
theorem sboxIsTheAffineInverse : Obligations.SboxIsTheAffineInverse := by
  refine ⟨fun a => ⟨affineInverse (sbox a), ?_⟩, fun a b hab => ?_, fun _ _ h => ?_,
    fun c => ⟨invSbox c, sbox_invSbox c⟩, sbox_ne_self,
    by decide, by decide, by decide, by decide, by decide, by decide⟩
  · obtain rfl | ha := eq_or_ne a 0
    · exact .inl ⟨rfl, affineInverse_sbox_zero⟩
    · exact .inr ⟨ha, gmul_affineInverse_sbox ha⟩
  · have hb : b = affineInverse (sbox a) := by
      obtain ⟨rfl, rfl⟩ | ⟨ha, hinv⟩ := hab
      · exact affineInverse_sbox_zero.symm
      · exact gmul_inverse_unique hinv (gmul_affineInverse_sbox ha)
    exact (affine_affineInverse (sbox a)).symm.trans (congrArg affine hb.symm)
  · exact Function.LeftInverse.injective invSbox_sbox h

/-- Settles O42: each table undoes the other. -/
theorem invSboxIsTheInverse : Obligations.InvSboxIsTheInverse :=
  ⟨fun a => ⟨invSbox_sbox a, sbox_invSbox a⟩, rfl, rfl, rfl⟩

end Sys2Proof.Machine
end

section
/-! SUPPORT. The key expansion word by word (42_aes128_inverse_cipher.md R165, R166). -/

namespace Sys2Proof.Machine

@[simp] theorem length_roundKeysFrom (k : Block) (rcs : List Byte) : (roundKeysFrom k rcs).length = rcs.length + 1 := by
  induction rcs generalizing k with
  | nil => rfl
  | cons rc rcs ih => rw [roundKeysFrom, List.length_cons, ih, List.length_cons]

/-- Each round key after the first is made from the one before it and its round constant. -/
theorem roundKey_roundKeysFrom_succ (k : Block) {rcs : List Byte} {r : Nat} (hr : r < rcs.length) :
    roundKey (roundKeysFrom k rcs) (r + 1) = nextRoundKey (rcs.getD r 0) (roundKey (roundKeysFrom k rcs) r) := by
  induction rcs generalizing k r with
  | nil => exact absurd hr (Nat.not_lt_zero r)
  | cons rc rcs ih =>
    cases r with
    | zero => cases rcs <;> rfl
    | succ r => exact ih (nextRoundKey rc k) (Nat.lt_of_succ_lt_succ hr)

theorem roundKey_keyExpansion_succ (key : Block) {r : Nat} (hr : r < 10) :
    roundKey (keyExpansion key) (r + 1) = nextRoundKey (rcon (r + 1)) (roundKey (keyExpansion key) r) :=
  roundKey_roundKeysFrom_succ key hr

theorem keyWord_eq_column (key : Block) (r : Nat) {c : Nat} (hc : c < 4) :
    keyWord key (4 * r + c) = (roundKey (keyExpansion key) r).column c := by
  rw [keyWord, show (4 * r + c) / 4 = r by omega, show (4 * r + c) % 4 = c by omega]

/-- The first word of a round key: RotWord, SubWord and the round constant on the word before it. -/
theorem keyWord_first (key : Block) {r : Nat} (hr : r < 10) :
    keyWord key (4 * (r + 1)) =
      (keyWord key (4 * r)).xor ((subWord (rotWord (keyWord key (4 * r + 3)))).xor ⟨rcon (r + 1), 0, 0, 0⟩) := by
  have hw : ∀ r, keyWord key (4 * r) = (roundKey (keyExpansion key) r).column 0 :=
    fun r => keyWord_eq_column key r (c := 0) (by decide)
  rw [hw, hw, keyWord_eq_column key r (by decide), roundKey_keyExpansion_succ key hr]
  rfl

/-- Every other word of a round key: the exclusive-or of the word four back and the word before it. -/
theorem keyWord_later (key : Block) {r c : Nat} (hr : r < 10) (hc : c < 3) :
    keyWord key (4 * (r + 1) + (c + 1)) = (keyWord key (4 * r + (c + 1))).xor (keyWord key (4 * (r + 1) + c)) := by
  rw [keyWord_eq_column key _ (by omega), keyWord_eq_column key _ (by omega), keyWord_eq_column key _ (by omega),
    roundKey_keyExpansion_succ key hr]
  interval_cases c <;> rfl

/-- The recurrence of the 44 words. -/
theorem keyWord_recurrence (key : Block) {i : Nat} (h4 : 4 ≤ i) (h44 : i < 44) :
    keyWord key i = (keyWord key (i - 4)).xor
      (if i % 4 = 0 then (subWord (rotWord (keyWord key (i - 1)))).xor ⟨rcon (i / 4), 0, 0, 0⟩
      else keyWord key (i - 1)) := by
  obtain ⟨r, hr⟩ : ∃ r, i / 4 = r + 1 := ⟨i / 4 - 1, by omega⟩
  by_cases hfirst : i % 4 = 0
  · rw [if_pos hfirst, hr, show i = 4 * (r + 1) by omega, show 4 * (r + 1) - 4 = 4 * r by omega,
      show 4 * (r + 1) - 1 = 4 * r + 3 by omega]
    exact keyWord_first key (by omega)
  · obtain ⟨c, hc⟩ : ∃ c, i % 4 = c + 1 := ⟨i % 4 - 1, by omega⟩
    rw [if_neg hfirst, show i = 4 * (r + 1) + (c + 1) by omega,
      show 4 * (r + 1) + (c + 1) - 4 = 4 * r + (c + 1) by omega, Nat.add_succ_sub_one]
    exact keyWord_later key (by omega) (by omega)

theorem bytes_roundKey (key : Block) (r : Nat) :
    (roundKey (keyExpansion key) r).bytes =
      (keyWord key (4 * r)).bytes ++ (keyWord key (4 * r + 1)).bytes ++ (keyWord key (4 * r + 2)).bytes ++
        (keyWord key (4 * r + 3)).bytes := by
  rw [keyWord_eq_column key r (c := 1) (by decide), keyWord_eq_column key r (c := 2) (by decide),
    keyWord_eq_column key r (c := 3) (by decide), ← Nat.add_zero (4 * r), keyWord_eq_column key r (by decide)]
  rfl

end Sys2Proof.Machine
end

section
/-! The statement on the key expansion, settled. -/

namespace Sys2Proof.Machine

/-- Settles O43: the recurrence of the words from the recurrence of the round keys, the worked example by running it. -/
theorem keyExpansionRecurrence : Obligations.KeyExpansionRecurrence := by
  refine ⟨⟨rfl, fun i h1 h10 => by interval_cases i <;> rfl⟩, fun key _ => ⟨by simp [keyExpansion, rconTable],
    fun i hi => by interval_cases i <;> rfl, ?_, fun r _ => bytes_roundKey (blockOf key) r, rfl, ?_⟩⟩
  · rintro i h4 h44 _ rfl
    rw [keyWord_recurrence (blockOf key) h4 h44]
    simp [subWord, rotWord, Column.map, Column.xor]
  · rintro rfl
    exact ⟨by decide, by decide, by decide +kernel⟩

end Sys2Proof.Machine
end

section
/-! SUPPORT. The transformations undo each other in the other order too, and the cipher round by round
(42_aes128_inverse_cipher.md R168 to R171, R174). -/

namespace Sys2Proof.Machine

/-! ## There are finitely many columns and blocks -/

theorem finite_column : Finite Column :=
  Finite.of_injective (fun c => (c.b0, c.b1, c.b2, c.b3)) fun x y h => by cases x; cases y; simpa using h

theorem finite_block : Finite Block :=
  have := finite_column
  Finite.of_injective (fun b => (b.c0, b.c1, b.c2, b.c3)) fun x y h => by cases x; cases y; simpa using h

/-- On a finite type what undoes a function on one side undoes it on the other. -/
theorem leftInverse_symm_of_finite {α : Type} [Finite α] {f g : α → α} (h : Function.LeftInverse f g) :
    Function.LeftInverse g f :=
  h.rightInverse_of_surjective (Finite.surjective_of_injective h.injective)

/-! ## Each transformation of the reference cipher undoes one of the inverse cipher -/

theorem shiftRows_invShiftRows (b : Block) : shiftRows (invShiftRows b) = b := rfl

/-- Moving bytes and substituting each of them commute (42_aes128_inverse_cipher.md R169). -/
theorem invSubBytes_comm_invShiftRows (b : Block) : invSubBytes (invShiftRows b) = invShiftRows (invSubBytes b) := rfl

theorem subBytes_invSubBytes (b : Block) : subBytes (invSubBytes b) = b := by
  simp [invSubBytes, subBytes, Block.mapColumns, Column.map, sbox_invSbox]

theorem mixColumns_invMixColumns (b : Block) : mixColumns (invMixColumns b) = b :=
  have := finite_block
  leftInverse_symm_of_finite invMixColumns_mixColumns b

theorem blockDecrypt_blockEncrypt (p key : Block) : blockDecrypt (blockEncrypt p key) key = p :=
  decryptWith_encryptWith (keyExpansion key) p

theorem blockEncrypt_blockDecrypt (c key : Block) : blockEncrypt (blockDecrypt c key) key = c :=
  have := finite_block
  leftInverse_symm_of_finite (f := (blockDecrypt · key)) (g := (blockEncrypt · key))
    (blockDecrypt_blockEncrypt · key) c

/-! ## InvMixColumns on columns -/

theorem column_mapColumns (b : Block) (f : Column → Column) (c : Nat) : (b.mapColumns f).column c = f (b.column c) := by
  simp only [Block.column, Block.mapColumns, apply_ite f]

theorem invMixColumns_xor (x y : Block) : invMixColumns (x.xor y) = (invMixColumns x).xor (invMixColumns y) := by
  simp only [invMixColumns, Block.mapColumns, Block.xor, invMixColumn_xor]

/-- The four coefficients of each row add up to 1. -/
theorem invMixColumn_equal (a : Byte) : invMixColumn ⟨a, a, a, a⟩ = ⟨a, a, a, a⟩ := by
  simp only [invMixColumn, ← xor_gmul, Column.mk.injEq]
  exact ⟨one_gmul a, one_gmul a, one_gmul a, one_gmul a⟩

/-! ## The states between the rounds -/

/-- The cipher state of `BlockDecrypt` after `n` full rounds (42_aes128_inverse_cipher.md R171). -/
def stateAfter (rk : List Block) (c : Block) : Nat → Block
  | 0 => addRoundKey c (roundKey rk Config.rounds)
  | n + 1 => decryptRound (stateAfter rk c n) (roundKey rk (9 - n))

theorem decryptWith_eq_stateAfter (rk : List Block) (c : Block) :
    decryptWith rk c = addRoundKey (invSubBytes (invShiftRows (stateAfter rk c 9))) (roundKey rk 0) := rfl

/-- The full round that uses round key `r`. -/
theorem stateAfter_eq_decryptRound (rk : List Block) (c : Block) {r : Nat} (h1 : 1 ≤ r) (h9 : r ≤ 9) :
    stateAfter rk c (10 - r) = decryptRound (stateAfter rk c (10 - (r + 1))) (roundKey rk r) := by
  rw [show 10 - r = 9 - r + 1 by omega, stateAfter, show 9 - (9 - r) = r by omega, Nat.succ_sub_succ]

end Sys2Proof.Machine
end

section
/-! The statements on the transformations and the cipher, settled. -/

namespace Sys2Proof.Machine

/-- Settles O44: both are moves of bytes, so every clause holds byte by byte by computation. -/
theorem invShiftRowsMovesBytes : Obligations.InvShiftRowsMovesBytes :=
  ⟨fun b j _ hj => by interval_cases j <;> rfl, fun b => ⟨invShiftRows_shiftRows b, shiftRows_invShiftRows b⟩,
    invSubBytes_comm_invShiftRows, rfl⟩

/-- Settles O45: the rule column by column, and the column lemmas lifted to blocks. -/
theorem invMixColumnsIsLinearInverse : Obligations.InvMixColumnsIsLinearInverse := by
  refine ⟨?_, invMixColumns_xor, invMixColumn_equal, by decide, by decide,
    fun b => ⟨invMixColumns_mixColumns b, mixColumns_invMixColumns b⟩⟩
  rintro b c _ _ rfl
  exact column_mapColumns b invMixColumn c

/-- Settles O46: every transformation has an inverse on both sides, and so has their composition. -/
theorem blockDecryptIsABijection : Obligations.BlockDecryptIsABijection := by
  refine ⟨fun p c key => ⟨blockDecrypt_blockEncrypt p key, blockEncrypt_blockDecrypt c key⟩, fun key => ?_,
    addRoundKey_addRoundKey, ?_, ?_, ?_, fun c key => ?_, fun b k j hj => ⟨getD_bytes_xor b k hj, ?_⟩,
    invSubBytes_comm_invShiftRows, by decide +kernel⟩
  · exact Function.bijective_iff_has_inverse.2
      ⟨(blockEncrypt · key), (blockEncrypt_blockDecrypt · key), (blockDecrypt_blockEncrypt · key)⟩
  · exact Function.bijective_iff_has_inverse.2 ⟨shiftRows, shiftRows_invShiftRows, invShiftRows_shiftRows⟩
  · exact Function.bijective_iff_has_inverse.2 ⟨subBytes, subBytes_invSubBytes, invSubBytes_subBytes⟩
  · exact Function.bijective_iff_has_inverse.2 ⟨mixColumns, mixColumns_invMixColumns, invMixColumns_mixColumns⟩
  · exact ⟨fun r => stateAfter (keyExpansion key) c (10 - r), rfl, fun r => stateAfter_eq_decryptRound _ c,
      decryptWith_eq_stateAfter _ c⟩
  · interval_cases j <;> rfl

end Sys2Proof.Machine
end

section
/-! SUPPORT. The reference encryptor block by block (42_aes128_inverse_cipher.md R176). -/

namespace Sys2Proof.Machine

theorem bytes_blockOf {l : List Byte} (h : 16 ≤ l.length) : (blockOf l).bytes = l.take 16 := by
  refine List.ext_getElem (by simp [h]) fun j hj hj' => ?_
  rw [List.getElem_take, ← List.getD_eq_getElem _ 0 hj, getD_bytes_blockOf l hj]
  exact List.getD_eq_getElem _ 0 _

/-- Block `k` of the chain: the plaintext block and the ciphertext block before it, `prev` before the
first, encrypted. -/
theorem getElem_cbcEncryptChain (rk : List Block) (prev : Block) {xs : List Block} {k : Nat} (hk : k < xs.length) :
    (cbcEncryptChain rk prev xs)[k]'(by simpa using hk) =
      encryptWith rk (xs[k].xor ((prev :: cbcEncryptChain rk prev xs)[k]'(by simp; omega))) := by
  induction xs generalizing prev k with
  | nil => exact absurd hk (Nat.not_lt_zero k)
  | cons x xs ih =>
    cases k with
    | zero => rfl
    | succ k => exact ih (encryptWith rk (x.xor prev)) (Nat.lt_of_succ_lt_succ hk)

/-- Block `k` of the reference ciphertext is block `k` of the chain. -/
theorem blockOf_drop_cbcEncryptRaw (x key iv : List Byte) {k : Nat} (hk : k < (blocksOf x).length) :
    blockOf ((cbcEncryptRaw x key iv).drop (16 * k)) =
      (cbcEncryptChain (keyExpansion (blockOf key)) (blockOf iv) (blocksOf x))[k]'(by simpa using hk) := by
  rw [← getElem_blocksOf _ (by simp at hk ⊢; omega)]
  simp only [cbcEncryptRaw, blocksOf_bytesOf]

end Sys2Proof.Machine
end

section
/-! The statement on the reference encryptor, settled. -/

namespace Sys2Proof.Machine

/-- Settles O60: block `k` of the chain; before it stands ciphertext block `k - 1`, or the IV. -/
theorem cbcEncryptChainsBlocks : Obligations.CbcEncryptChainsBlocks := by
  constructor
  · rintro n x key iv _ hx _ _ _ rfl
    have hlen : (cbcEncryptRaw x key iv).length = 16 * n := by rw [length_cbcEncryptRaw, hx]; omega
    refine ⟨hlen, fun k hk => ?_⟩
    have hkx : k < (blocksOf x).length := by rw [length_blocksOf, hx]; omega
    rw [← bytes_blockOf (by rw [List.length_drop, hlen]; omega), blockOf_drop_cbcEncryptRaw x key iv hkx,
      getElem_cbcEncryptChain _ _ hkx, getElem_blocksOf, blockEncrypt]
    cases k with
    | zero => rfl
    | succ k =>
      rw [List.getElem_cons_succ, ← blockOf_drop_cbcEncryptRaw x key iv (Nat.lt_of_succ_lt hkx)]
      rfl
  · rintro m key iv _ rfl
    exact ⟨rfl, length_cbcEncrypt m key iv⟩

end Sys2Proof.Machine
end

section
/-! SUPPORT. What the comparison of two sequences answers (43_verify_compare.md R203), and the two results of one engine's
answer, without and with the comparison (R200, R204). -/

namespace Sys2Proof.Machine

/-! ## The comparison -/

theorem compareBytesFrom_eq_pass_iff {d : Nat} {a e : List Byte} : compareBytesFrom d a e = .pass ↔ a = e := by
  induction a generalizing d e with
  | nil => cases e <;> simp [compareBytesFrom]
  | cons x a ih =>
    cases e with
    | nil => simp [compareBytesFrom]
    | cons y e =>
      unfold compareBytesFrom
      split
      next h => simp [h, ih]
      next h => simp [h]

/-- The comparison walks over any stretch on which the sequences agree. -/
theorem compareBytesFrom_eq_drop {k : Nat} (d : Nat) {a e : List Byte} (ha : k ≤ a.length) (he : k ≤ e.length)
    (hagree : ∀ i, i < k → a.getD i 0 = e.getD i 0) :
    compareBytesFrom d a e = compareBytesFrom (d + k) (a.drop k) (e.drop k) := by
  induction k generalizing d a e with
  | zero => rfl
  | succ k ih =>
    match a, e with
    | x :: a, y :: e =>
      have hhead : x = y := hagree 0 k.succ_pos
      have htail : ∀ i, i < k → a.getD i 0 = e.getD i 0 := fun i hi => hagree (i + 1) (Nat.succ_lt_succ hi)
      rw [compareBytesFrom, if_pos hhead, ih _ (Nat.le_of_succ_le_succ ha) (Nat.le_of_succ_le_succ he) htail,
        List.drop_succ_cons, List.drop_succ_cons, Nat.add_right_comm, Nat.add_assoc]

/-- What is left of a sequence at an index inside it, the byte there as the statements read it. -/
theorem drop_eq_getD_cons {l : List Byte} {i : Nat} (h : i < l.length) : l.drop i = l.getD i 0 :: l.drop (i + 1) := by
  rw [List.getD_eq_getElem _ _ h, List.drop_eq_getElem_cons h]

/-! ## One engine's answer, judged without and with verification -/

theorem State.readReg_mismatchInfo (s : State) : s.readReg 8 = s.mismatchInfo.word := rfl

/-- A valid bit put in its place. `ComparatorWrites` shifts the bit as a natural number and casts the result to a word. -/
theorem optByteValid_shiftLeft (b : Option Byte) (n : Nat) :
    optByteValid b <<< n = (((if b.isSome then 1 else 0) <<< n : Nat) : Word) := by
  cases b with
  | none => simp [optByteValid]
  | some _ => exact BitVec.eq_of_toNat_eq (by simp [optByteValid])

/-- The layout of the register, with the valid bits as the statement writes them (43_verify_compare.md R204). -/
theorem MismatchInfo.word_mk (e a : Option Byte) :
    MismatchInfo.word ⟨e, a⟩ = (e.getD 0).setWidth 32 ||| ((a.getD 0).setWidth 32 <<< 8) |||
      ((if e.isSome then 1 else 0) <<< 16) ||| ((if a.isSome then 1 else 0) <<< 17) := by
  rw [MismatchInfo.word, optByteValid_shiftLeft, optByteValid_shiftLeft, optByteField,
    optByteField]

/-- With both bytes absent the register reads 0 (10_state.md R33). -/
theorem MismatchInfo.word_none : MismatchInfo.word ⟨none, none⟩ = 0 := by decide

theorem State.overCapacity_eq_without_reference {s : State} (href : s.refLen ≤ s.cap) (x v : Bool) :
    s.overCapacity x v = s.overCapacity x false := by
  simp [State.overCapacity, BitVec.not_lt.2 href]

/-- With `REF_LEN` within `CAP` the commands with and without `V` judge one and the same answer: the capacity check or
the engine gives it, and neither sees `V` (43_verify_compare.md R200, R204). -/
theorem State.commandResult_same_answer {s : State} (href : s.refLen ≤ s.cap) (x : Bool)
    {engine : State → Except Err (List Byte)} (h : EngineOk s (engine s)) :
    ∃ r, EngineOk s r ∧ ∀ v, s.commandResult x v engine = judge v s.reference r := by
  cases hc : s.overCapacity x false with
  | true =>
    refine ⟨.error .capacityExceeded, by simp [EngineOk], fun v => ?_⟩
    rw [State.commandResult_of_overCapacity ((State.overCapacity_eq_without_reference href x v).trans hc), judge_error]
  | false =>
    exact ⟨engine s, h, fun v =>
      State.commandResult_of_fits ((State.overCapacity_eq_without_reference href x v).trans hc) engine⟩

/-- The two completions of `XOR` and `XOR.V`, or of `CBCDEC` and `CBCDEC.V`, from one state (40_otp_xor.md R112,
41_aes_cbc_decrypt.md R137). -/
theorem exec_plain_and_verify {s t u : State} (hb : s.phase = .busy) (href : s.refLen ≤ s.cap)
    (h : (exec .xor s = .next u ∧ exec .xorV s = .next t) ∨ (exec .cbcdec s = .next u ∧ exec .cbcdecV s = .next t)) :
    ∃ r, EngineOk s r ∧ u = s.finish (judge false s.reference r) ∧ t = s.finish (judge true s.reference r) := by
  rcases h with ⟨hu, ht⟩ | ⟨hu, ht⟩
  · obtain ⟨r, hok, hr⟩ := State.commandResult_same_answer href true (xorEngine_ok s)
    rw [exec_xor_of_busy hb, hr, Host.Outcome.next.injEq] at hu
    rw [exec_xorV_of_busy hb, hr, Host.Outcome.next.injEq] at ht
    exact ⟨r, hok, hu.symm, ht.symm⟩
  · obtain ⟨r, hok, hr⟩ := State.commandResult_same_answer href false (cbcEngine_ok s)
    rw [exec_cbcdec_of_busy hb, hr, Host.Outcome.next.injEq] at hu
    rw [exec_cbcdecV_of_busy hb, hr, Host.Outcome.next.injEq] at ht
    exact ⟨r, hok, hu.symm, ht.symm⟩

end Sys2Proof.Machine
end

section
/-! The statements on the byte-exact comparator, settled. -/

namespace Sys2Proof.Machine

/-- Settles O48: the comparison walks over the common stretch and answers on the first two bytes of what is left. -/
theorem compareFindsFirstDifference : Obligations.CompareFindsFirstDifference := by
  intro a e
  refine ⟨compareBytesFrom_eq_pass_iff, fun d hd hne hagree => ?_, fun hlt hagree => ?_, fun hlt hagree => ?_⟩
  · obtain ⟨hda, hde⟩ := lt_min_iff.1 hd
    rw [compareBytes, compareBytesFrom_eq_drop 0 hda.le hde.le hagree, drop_eq_getD_cons hda, drop_eq_getD_cons hde,
      compareBytesFrom, if_neg hne, Nat.zero_add]
  · rw [compareBytes, compareBytesFrom_eq_drop 0 le_rfl hlt.le hagree, List.drop_length, drop_eq_getD_cons hlt,
      compareBytesFrom, Nat.zero_add]
  · rw [compareBytes, compareBytesFrom_eq_drop 0 hlt.le le_rfl hagree, List.drop_length, drop_eq_getD_cons hlt,
      compareBytesFrom, Nat.zero_add]

/-- Settles O49: both commands judge one answer; the output is the answer's in both, and with `V` an error is `ERROR`
while an output is completed with the verdict of its comparison. -/
theorem comparatorWrites : Obligations.ComparatorWrites := by
  intro s t u hb href h
  obtain ⟨r, hok, rfl, rfl⟩ := exec_plain_and_verify hb href h
  refine ⟨by simp only [State.finish_outLen, judge_out], by simp only [State.finish_outBuf, judge_out], ?_⟩
  cases r with
  | error k =>
    obtain ⟨hk, -, -⟩ := hok
    exact ⟨fun _ => ⟨rfl, rfl, rfl, MismatchInfo.word_none⟩, fun hnone => absurd hnone hk⟩
  | ok out =>
    have hlen : out.length < 2 ^ 32 := lt_of_le_of_lt hok s.inLen.isLt
    have hjudged := s.finish_judged hlen s.reference
    refine ⟨fun herr => absurd rfl herr, fun _ => ?_⟩
    rw [s.finish_output (judge false s.reference (.ok out)) hlen, judge_plain, judge_verify]
    cases hv : compareBytes out s.reference with
    | pass => exact ⟨rfl, rfl, rfl, MismatchInfo.word_none⟩
    | fail d e a =>
      rw [hv] at hjudged
      refine ⟨rfl, rfl, hjudged.mismatchAt, ?_⟩
      rw [State.readReg_mismatchInfo, hjudged.mismatchInfo, MismatchInfo.word_mk]

end Sys2Proof.Machine
end

section
/-! SUPPORT. What a host's register write and read do, by the register selected (44_control_ops.md R218, R219), what
`CLEAR` leaves (R222), and the phase after each step (R226). -/

namespace Sys2Proof.Machine

/-! ## The register a number selects -/

@[simp] theorem RegName.ofNumber_number (r : RegName) : RegName.ofNumber r.number = some r :=
  RegName.ofNumber_eq_some.2 rfl

/-- A number that selects no register is none of the eleven assigned ones (10_state.md R22, R37). -/
theorem RegName.ne_of_ofNumber_eq_none {n : Word} (h : RegName.ofNumber n = none) :
    n ≠ 0 ∧ n ≠ 1 ∧ n ≠ 2 ∧ n ≠ 3 ∧ n ≠ 4 ∧ n ≠ 5 ∧ n ≠ 6 ∧ n ≠ 7 ∧ n ≠ 8 ∧ n ≠ 9 ∧ n ≠ 10 :=
  have hn := RegName.ofNumber_eq_none.1 h
  ⟨hn .cmd, hn .status, hn .inLen, hn .kmLen, hn .ivLen, hn .refLen, hn .outLen, hn .mismatchAt, hn .mismatchInfo,
    hn .lastCmd, hn .cap⟩

@[simp] theorem State.readReg_number (s : State) (r : RegName) : s.readReg r.number = s.loadReg r := by
  simp [State.readReg]

/-! ## A register write, by the register -/

theorem exec_clear_of_busy {s : State} (h : s.phase = .busy) : exec .clear s = .next s := if_pos h

theorem exec_clear_of_not_busy {s : State} (h : s.phase ≠ .busy) : exec .clear s = .next s.discard := if_neg h

/-- `CLEAR` is its host write, in every phase (44_control_ops.md R222). -/
theorem perform_hostWriteReg_clear (s : State) : perform (.hostWriteReg 0 0x00000003) s = exec .clear s := by
  by_cases hb : s.phase = .busy
  · rw [exec_clear_of_busy hb]; exact if_pos hb
  · exact if_neg hb

/-- A word written to `CMD` outside phase BUSY is a START of it unless it is `CLEAR` (44_control_ops.md R218). -/
theorem perform_hostWriteReg_start {s : State} {w : Word} (hb : s.phase ≠ .busy) (hw : w ≠ 0x00000003) :
    perform (.hostWriteReg 0 w) s = .next (s.start w) := by
  refine (if_neg hb).trans ?_
  simp only [show RegName.ofNumber 0 = some .cmd from rfl]
  split
  next hd => exact absurd (decode_clear_iff.1 hd) hw
  next => rfl

/-- A word written to a register other than `CMD` outside phase BUSY is stored, if the register stores anything. -/
theorem perform_hostWriteReg_store {s : State} {r : RegName} (hb : s.phase ≠ .busy) (hr : r ≠ .cmd) (w : Word) :
    perform (.hostWriteReg r.number w) s = .next (s.storeReg r w) := by
  refine (if_neg hb).trans ?_
  rw [RegName.ofNumber_number]
  cases r
  case cmd => exact absurd rfl hr
  all_goals rfl

/-! ## `CLEAR` -/

theorem State.discard_isReset (s : State) : s.discard.IsReset := by
  constructor <;> simp [MismatchInfo.word_none]

/-! ## The phase from one step to the next -/

/-- A register write moves the phase only as `CLEAR` or as a START (44_control_ops.md R226). -/
theorem hostWriteReg_phase {s t : State} {n w : Word} (h : hostWriteReg s n w = .next t) :
    t.phase = if s.phase = .busy then .busy
      else if n = 0 then (if w = 0x00000003 then .idle else .busy) else s.phase := by
  rcases hostWriteReg_cases h with ⟨hb, rfl⟩ | ⟨hb, hn, hw, rfl⟩ | ⟨hb, hn, hw, rfl⟩ | ⟨hb, hn, r, -, -, rfl⟩ |
    ⟨hb, hn, -, rfl⟩
  · rw [if_pos hb, hb]
  · rw [if_neg hb, if_pos hn, if_pos hw, State.discard_phase]
  · rw [if_neg hb, if_pos hn, if_neg hw, State.start_phase]
  · rw [if_neg hb, if_neg hn, State.storeReg_phase]
  · rw [if_neg hb, if_neg hn]

end Sys2Proof.Machine
end

section
/-! The statements on register accesses, START, `CLEAR` and the phases, settled. -/

namespace Sys2Proof.Machine

/-- Settles O8, by the register the number selects. -/
theorem hostWriteRegister : Obligations.HostWriteRegister := by
  intro s n w
  by_cases hb : s.phase = .busy
  · exact ⟨s, if_pos hb, by rw [if_pos hb]⟩
  simp only [if_neg hb]
  cases hr : RegName.ofNumber n with
  | none =>
    refine ⟨s, perform_hostWriteReg_ignored (by simp [hr]) s w, ?_⟩
    simp only [RegName.ne_of_ofNumber_eq_none hr, false_and, if_false]
  | some r =>
    obtain rfl := RegName.ofNumber_eq_some.1 hr
    cases r
    case cmd =>
      by_cases hw : w = 0x00000003
      · subst hw
        have hclear := exec_clear_of_not_busy hb
        exact ⟨s.discard, (perform_hostWriteReg_clear s).trans hclear, hclear⟩
      · exact ⟨s.start w, perform_hostWriteReg_start hb hw, by rw [if_neg (not_and_of_not_right _ hw)]; rfl⟩
    all_goals exact ⟨_, perform_hostWriteReg_store hb (by decide) w, rfl⟩

/-- Settles O9, by the register the number selects. -/
theorem hostReadRegister : Obligations.HostReadRegister := by
  intro s n
  refine ⟨s.answer (.reg n (s.readReg n)), s.readReg n, rfl, rfl, rfl, ?_⟩
  cases hr : RegName.ofNumber n with
  | none => simp only [State.readReg, hr, RegName.ne_of_ofNumber_eq_none hr, if_false]
  | some r =>
    obtain rfl := RegName.ofNumber_eq_some.1 hr
    rw [State.readReg_number]
    cases r <;> rfl

/-- Settles O21, by what each agent step leaves in `PHASE`. -/
theorem phaseMachine : Obligations.PhaseMachine := by
  intro s t a h
  rcases perform_cases h with ⟨n, w, rfl, hw⟩ | ⟨n, rfl, rfl⟩ | ⟨sp, i, b, rfl, rfl⟩ | ⟨sp, i, rfl, rfl⟩ |
    ⟨rfl, hb, rfl⟩ | ⟨rfl, hb, rfl⟩ | ⟨rfl, rfl⟩
  · exact hostWriteReg_phase hw
  · exact s.answer_phase _
  · exact (s.hostWriteBuf_keepsResults sp i b).phase
  · exact s.answer_phase _
  · exact (if_pos hb).symm
  · exact (if_neg hb).symm
  · exact s.discard_phase

/-- Settles O17: the write is `START(w)`, whose fields are the statement's. -/
theorem startClearsResults : Obligations.StartClearsResults := by
  intro s w hb hw
  refine ⟨s.start w, perform_hostWriteReg_start hb hw, rfl, rfl, rfl, rfl, fun _ => rfl, rfl,
    MismatchInfo.word_none, rfl, rfl, rfl, rfl, rfl, rfl, fun sp hsp a => ?_, rfl, rfl⟩
  rw [State.start_buf, if_neg hsp]

/-- Settles O18: the write is `CLEAR`, which leaves the state of `discard` or, in phase BUSY, the state it finds. -/
theorem clearReturnsToReset : Obligations.ClearReturnsToReset :=
  ⟨perform_hostWriteReg_clear, fun _ hb => perform_hostWriteReg_start hb (by decide),
    fun s hb => ⟨s.discard, exec_clear_of_not_busy hb, s.discard_isReset, rfl, rfl, rfl⟩,
    fun _ => exec_clear_of_busy⟩

end Sys2Proof.Machine
end

section
/-! SUPPORT. Which words are an engine's command, which engine it runs on, and whether it verifies (30_encoding.md
R92). -/

namespace Sys2Proof

/-- Whether a command runs on the XOR unit. -/
def Instr.isXor (i : Instr) : Bool := decide (i = .xor ∨ i = .xorV)

theorem Instr.isXor_iff {i : Instr} : i.isXor = true ↔ i = .xor ∨ i = .xorV := decide_eq_true_iff

theorem Instr.verifies_iff {i : Instr} : i.verifies = true ↔ i = .xorV ∨ i = .cbcdecV := by
  cases i <;> decide

/-- The words left by the conditions of `ReservedWordCompletes` and `ErrorPriority` are those that decode to a command
of an engine (30_encoding.md R92). -/
theorem not_other_word_iff {w : Word} :
    ¬(w ≠ 0x00000001 ∧ w ≠ 0x00000101 ∧ w ≠ 0x00000002 ∧ w ≠ 0x00000102) ↔
      ∃ i, decode w = .ok i ∧ i ≠ .clear := by
  constructor
  · intro h
    obtain rfl | rfl | rfl | rfl : w = 0x00000001 ∨ w = 0x00000101 ∨ w = 0x00000002 ∨ w = 0x00000102 := by tauto
    · exact ⟨.xor, rfl, by decide⟩
    · exact ⟨.xorV, rfl, by decide⟩
    · exact ⟨.cbcdec, rfl, by decide⟩
    · exact ⟨.cbcdecV, rfl, by decide⟩
  · rintro ⟨i, hi, hclear⟩
    rw [eq_encode_of_decode hi]
    cases i
    case clear => exact absurd rfl hclear
    all_goals decide

theorem isXor_iff_of_decode {w : Word} {i : Instr} (h : decode w = .ok i) :
    w = 0x00000001 ∨ w = 0x00000101 ↔ i.isXor = true := by
  rw [eq_encode_of_decode h]
  cases i <;> decide

theorem verifies_iff_of_decode {w : Word} {i : Instr} (h : decode w = .ok i) :
    w = 0x00000101 ∨ w = 0x00000102 ↔ i.verifies = true := by
  rw [eq_encode_of_decode h]
  cases i <;> decide

end Sys2Proof
end

section
/-! SUPPORT. The error kind a command ends with, and its cause (60_exceptions.md R242 to R247). -/

namespace Sys2Proof.Machine

/-! ## The errors of the engines -/

theorem xorEngine_eq_error_iff {s : State} {k : Err} :
    xorEngine s = .error k ↔ k = .insufficientKeyMaterial ∧ s.kmLen < s.inLen := by
  rcases xorEngine_cases s with ⟨hshort, h⟩ | ⟨henough, h, -⟩
  · simp [h, hshort, eq_comm]
  · simp [h, henough]

/-- The four causes of `InvalidCipherInput` (60_exceptions.md R245). -/
theorem State.cipherLengthsOk_eq_false_iff (s : State) :
    s.cipherLengthsOk = false ↔ s.kmLen ≠ 16 ∨ s.ivLen ≠ 16 ∨ s.inLen = 0 ∨ s.inLen.toNat % 16 ≠ 0 := by
  rw [← Bool.not_eq_true, s.cipherLengthsOk_iff]
  tauto

theorem cbcEngine_eq_error_iff {s : State} {k : Err} :
    cbcEngine s = .error k ↔
      (k = .invalidCipherInput ∧ s.cipherLengthsOk = false) ∨
      (k = .invalidPadding ∧ ¬s.cipherLengthsOk = false ∧ unpad (cbcRaw s.input s.key s.ivBytes) = none) := by
  rcases cbcEngine_cases s with ⟨hl, h⟩ | ⟨hl, hu, h⟩ | ⟨out, hl, hu, h, -⟩
  · simp [h, hl, eq_comm]
  · simp [h, hl, hu, eq_comm]
  · simp [h, hl, hu]

theorem xorEngine_eq_ok {s : State} {out : List Byte} (h : xorEngine s = .ok out) :
    out = xorTransform s.input s.pad := by
  rcases xorEngine_cases s with ⟨-, hx⟩ | ⟨-, hx, -⟩ <;> rw [hx] at h <;> cases h
  rfl

theorem cbcEngine_eq_ok {s : State} {out : List Byte} (h : cbcEngine s = .ok out) :
    unpad (cbcRaw s.input s.key s.ivBytes) = some out := by
  rcases cbcEngine_cases s with ⟨-, hc⟩ | ⟨-, -, hc⟩ | ⟨out', -, hu, hc, -⟩ <;> rw [hc] at h <;> cases h
  exact hu

/-- The engine of a command, by the unit it runs on. -/
def engineOf (isXor : Bool) : State → Except Err (List Byte) :=
  if isXor then xorEngine else cbcEngine

theorem engineOf_ok (x : Bool) (s : State) : EngineOk s (engineOf x s) := by
  cases x
  · exact cbcEngine_ok s
  · exact xorEngine_ok s

/-- The capacity check is not an engine's. -/
theorem engineOf_ne_capacityExceeded (x : Bool) (s : State) : engineOf x s ≠ .error .capacityExceeded := by
  cases x
  · exact mt cbcEngine_eq_error_iff.1 (by simp)
  · exact mt xorEngine_eq_error_iff.1 (by simp)

/-- The answer of an engine by its checks in their order (60_exceptions.md R247). -/
theorem engineOf_eq (x : Bool) (s : State) :
    engineOf x s =
      if x = true ∧ s.kmLen < s.inLen then .error .insufficientKeyMaterial
      else if ¬x = true ∧ s.cipherLengthsOk = false then .error .invalidCipherInput
      else if ¬x = true ∧ unpad (cbcRaw s.input s.key s.ivBytes) = none then .error .invalidPadding
      else .ok (if x = true then xorTransform s.input s.pad
        else (unpad (cbcRaw s.input s.key s.ivBytes)).getD []) := by
  cases x with
  | true =>
    rcases xorEngine_cases s with ⟨hshort, h⟩ | ⟨henough, h, -⟩
    · simp [engineOf, h, hshort]
    · simp [engineOf, h, henough]
  | false =>
    rcases cbcEngine_cases s with ⟨hl, h⟩ | ⟨hl, hu, h⟩ | ⟨out, hl, hu, h, -⟩
    · simp [engineOf, h, hl]
    · simp [engineOf, h, hl, hu]
    · simp [engineOf, h, hl, hu]

/-! ## The error kind of a judged answer -/

/-- A comparison fails exactly when the output is not the reference (43_verify_compare.md R203, R204). -/
theorem judge_ok_err (v : Bool) (ref out : List Byte) :
    (judge v ref (.ok out)).err = if v = true ∧ out ≠ ref then .mismatch else .none := by
  cases v with
  | false => simp
  | true =>
    have hpass : compareBytes out ref = .pass ↔ out = ref := compareBytesFrom_eq_pass_iff
    rw [judge_verify]
    cases hv : compareBytes out ref with
    | pass => simp [Verdict.result, hpass.1 hv]
    | fail d e a => simp [Verdict.result, ← hpass, hv]

/-- An error kind that is no verdict is the engine's, or the capacity check's. -/
theorem judge_err_eq_iff {v : Bool} {ref : List Byte} {r : Except Err (List Byte)} {k : Err}
    (hnone : k ≠ .none) (hmismatch : k ≠ .mismatch) : (judge v ref r).err = k ↔ r = .error k := by
  cases r with
  | error k' => simp [Result.failed]
  | ok out =>
    rw [judge_ok_err]
    split
    · simp [hmismatch.symm]
    · simp [hnone.symm]

theorem State.commandResult_err_eq_capacityExceeded_iff {s : State} {x v : Bool}
    {engine : State → Except Err (List Byte)} (h : engine s ≠ .error .capacityExceeded) :
    (s.commandResult x v engine).err = .capacityExceeded ↔ s.overCapacity x v = true := by
  rw [State.commandResult, judge_err_eq_iff (by decide) (by decide)]
  split
  next hc => simp [hc]
  next hc => simp [hc, h]

theorem State.commandResult_err_eq_iff {s : State} {x v : Bool} {engine : State → Except Err (List Byte)} {k : Err}
    (hnone : k ≠ .none) (hmismatch : k ≠ .mismatch) (hcapacity : k ≠ .capacityExceeded) :
    (s.commandResult x v engine).err = k ↔ s.overCapacity x v = false ∧ engine s = .error k := by
  rw [State.commandResult, judge_err_eq_iff hnone hmismatch]
  split
  next hc => simp [hc, hcapacity.symm]
  next hc => simp [hc]

/-- The first cause that holds (60_exceptions.md R247): the capacity check, the engine's checks, the comparison. -/
theorem State.commandResult_err_eq (s : State) (x v : Bool) :
    (s.commandResult x v (engineOf x)).err =
      if s.overCapacity x v = true then .capacityExceeded
      else if x = true ∧ s.kmLen < s.inLen then .insufficientKeyMaterial
      else if ¬x = true ∧ s.cipherLengthsOk = false then .invalidCipherInput
      else if ¬x = true ∧ unpad (cbcRaw s.input s.key s.ivBytes) = none then .invalidPadding
      else if v = true ∧
        (if x = true then xorTransform s.input s.pad
          else (unpad (cbcRaw s.input s.key s.ivBytes)).getD []) ≠ s.reference then .mismatch
      else .none := by
  rw [State.commandResult, engineOf_eq]
  simp only [apply_ite (judge v s.reference), apply_ite Result.err, judge_error, judge_ok_err, Result.failed]

/-! ## The latched command -/

/-- The latched word is a command of an engine, which gives the result, or any other word, which is an invalid command
(44_control_ops.md R223). -/
theorem State.latchedResult_cases (s : State) :
    (∃ i, decode s.lastCmd = .ok i ∧ i ≠ .clear ∧
      s.latchedResult = s.commandResult i.isXor i.verifies (engineOf i.isXor)) ∨
    ((¬∃ i, decode s.lastCmd = .ok i ∧ i ≠ .clear) ∧ s.latchedResult = invalidCommandResult) := by
  unfold State.latchedResult
  cases hd : decode s.lastCmd with
  | error why => exact .inr ⟨by simp, rfl⟩
  | ok i =>
    cases i
    case clear => exact .inr ⟨by simp, rfl⟩
    all_goals exact .inl ⟨_, rfl, by decide, rfl⟩

/-- A latched word of an engine's command completes with that command's result. -/
theorem State.latchedResult_of_decode {s : State} {i : Instr} (h : decode s.lastCmd = .ok i) (hi : i ≠ .clear) :
    s.latchedResult = s.commandResult i.isXor i.verifies (engineOf i.isXor) := by
  rcases s.latchedResult_cases with ⟨j, hj, -, hr⟩ | ⟨hnone, -⟩
  · obtain rfl : i = j := Except.ok.inj (h.symm.trans hj)
    exact hr
  · exact absurd ⟨i, h, hi⟩ hnone

/-- Every word but the four of the engines' commands is an invalid command (60_exceptions.md R242). -/
theorem State.latchedResult_of_other_word {s : State}
    (h : s.lastCmd ≠ 0x00000001 ∧ s.lastCmd ≠ 0x00000101 ∧ s.lastCmd ≠ 0x00000002 ∧ s.lastCmd ≠ 0x00000102) :
    s.latchedResult = invalidCommandResult := by
  rcases s.latchedResult_cases with ⟨i, hi, hclear, -⟩ | ⟨-, hr⟩
  · exact absurd h (not_other_word_iff.2 ⟨i, hi, hclear⟩)
  · exact hr

/-- What a command's result leaves when it is an error other than `Mismatch` (60_exceptions.md R246). -/
theorem State.finish_commandResult_failed {s : State} {x v : Bool} {engine : State → Except Err (List Byte)} {k : Err}
    (h : (s.commandResult x v engine).err = k) (hnone : k ≠ .none) (hmismatch : k ≠ .mismatch) :
    (s.finish (s.commandResult x v engine)).Failed k v := by
  rw [State.commandResult, (judge_err_eq_iff hnone hmismatch).1 h, judge_error]
  exact s.finish_failed v k

/-- What a comparison that fails leaves, and which output it was of (60_exceptions.md R246). -/
theorem State.finish_commandResult_mismatch {s : State} {x v : Bool} {engine : State → Except Err (List Byte)}
    (hok : EngineOk s (engine s)) (h : (s.commandResult x v engine).err = .mismatch) :
    v = true ∧ ∃ out d e a, engine s = .ok out ∧ compareBytes out s.reference = .fail d e a ∧
      (s.finish (s.commandResult x v engine)).Completed .mismatch .fail out d ⟨e, a⟩ := by
  obtain ⟨r, hr, hcause, herr, hlen⟩ := s.commandResult_cases x v hok
  rw [hr] at h ⊢
  cases r with
  | error k => exact absurd h (herr k rfl).2.1
  | ok out =>
    have hengine : engine s = .ok out := by
      rcases hcause with ⟨-, hc⟩ | ⟨-, hc⟩
      · cases hc
      · exact hc.symm
    rw [judge_ok_err] at h
    split at h
    next hv =>
      obtain ⟨rfl, hne⟩ := hv
      have hjudged := s.finish_judged ((hlen out rfl).1.trans_lt s.inLen.isLt) s.reference
      cases hcmp : compareBytes out s.reference with
      | pass => exact absurd (compareBytesFrom_eq_pass_iff.1 hcmp) hne
      | fail d e a =>
        rw [hcmp] at hjudged
        refine ⟨rfl, out, d, e, a, hengine, hcmp, ?_⟩
        rw [judge_verify, hcmp]
        exact hjudged
    next => cases h

end Sys2Proof.Machine
end

section
/-! The statements on errors, settled. -/

namespace Sys2Proof.Machine

/-- Settles O50: every other word completes with the one result of an invalid command. -/
theorem reservedWordCompletes : Obligations.ReservedWordCompletes := by
  intro s hb h1 h101 h2 h102
  refine ⟨_, perform_engineComplete_of_busy hb, ?_, s.finish_keepsInputs _⟩
  rw [State.latchedResult_of_other_word ⟨h1, h101, h2, h102⟩]
  exact s.finish_failed false .invalidCommand

/-- Settles O51: no engine answers `CapacityExceeded`, so it is the capacity check's. -/
theorem capacityCheck : Obligations.CapacityCheck := by
  intro s i hb hi hclear
  have hover := State.commandResult_err_eq_capacityExceeded_iff (x := i.isXor) (v := i.verifies)
    (engineOf_ne_capacityExceeded i.isXor s)
  have hv : decide (i = .xorV ∨ i = .cbcdecV) = i.verifies := by
    rw [Bool.eq_iff_iff, decide_eq_true_iff, Instr.verifies_iff]
  refine ⟨_, perform_engineComplete_of_busy hb, ?_, ?_⟩ <;> rw [State.latchedResult_of_decode hi hclear]
  · rw [State.finish_err, hover, State.overCapacity_iff, Instr.isXor_iff, Instr.verifies_iff]
  · intro h
    rw [hv]
    exact State.finish_commandResult_failed h (by decide) (by decide)

/-- Settles O52: of the two engines only the XOR unit answers `InsufficientKeyMaterial`, on a short pad. -/
theorem insufficientKeyMaterialCause : Obligations.InsufficientKeyMaterialCause := by
  intro s hb
  have herr (x v : Bool) (engine : State → Except Err (List Byte)) :=
    State.commandResult_err_eq_iff (s := s) (x := x) (v := v) (engine := engine) (k := .insufficientKeyMaterial)
      (by decide) (by decide) (by decide)
  refine ⟨⟨_, exec_xor_of_busy hb, ?_⟩, ⟨_, exec_xorV_of_busy hb, ?_⟩, ⟨_, exec_cbcdec_of_busy hb, ?_⟩,
    ⟨_, exec_cbcdecV_of_busy hb, ?_⟩⟩
  · simp [herr, xorEngine_eq_error_iff, State.overCapacity_eq_false_iff, and_assoc]
  · simp [herr, xorEngine_eq_error_iff, State.overCapacity_eq_false_iff, and_assoc]
  · simp [herr, cbcEngine_eq_error_iff]
  · simp [herr, cbcEngine_eq_error_iff]

/-- Settles O53: the CBC unit answers `InvalidCipherInput` on its length checks and `InvalidPadding` past them, and the
XOR unit neither. -/
theorem cipherInputAndPaddingCauses : Obligations.CipherInputAndPaddingCauses := by
  intro s hb
  have hinput (x v : Bool) (engine : State → Except Err (List Byte)) :=
    State.commandResult_err_eq_iff (s := s) (x := x) (v := v) (engine := engine) (k := .invalidCipherInput)
      (by decide) (by decide) (by decide)
  have hpadding (x v : Bool) (engine : State → Except Err (List Byte)) :=
    State.commandResult_err_eq_iff (s := s) (x := x) (v := v) (engine := engine) (k := .invalidPadding)
      (by decide) (by decide) (by decide)
  simp only [← State.cipherLengthsOk_eq_false_iff]
  refine ⟨⟨_, exec_cbcdec_of_busy hb, ?_⟩, ⟨_, exec_cbcdecV_of_busy hb, ?_⟩, ⟨_, exec_xor_of_busy hb, ?_⟩,
    ⟨_, exec_xorV_of_busy hb, ?_⟩⟩
  · simp [hinput, hpadding, cbcEngine_eq_error_iff, State.overCapacity_eq_false_iff]
  · simp [hinput, hpadding, cbcEngine_eq_error_iff, State.overCapacity_eq_false_iff, and_assoc]
  · simp [hinput, hpadding, xorEngine_eq_error_iff]
  · simp [hinput, hpadding, xorEngine_eq_error_iff]

/-- Settles O54, by the result of the latched command: an error's writes, or those of a comparison that fails, whose
output is the answer of the engine that ran. -/
theorem errorLeavesNoOutput : Obligations.ErrorLeavesNoOutput := by
  intro s t hb ht
  obtain rfl : s.finish s.latchedResult = t := by simpa [perform_engineComplete_of_busy hb] using ht
  refine ⟨s.finish_keepsInputs _, ?_⟩
  rcases s.latchedResult_cases with ⟨i, hi, hclear, hr⟩ | ⟨hother, hr⟩ <;> rw [hr]
  · have hv : decide (decode s.lastCmd = .ok .xorV ∨ decode s.lastCmd = .ok .cbcdecV) = i.verifies := by
      rw [Bool.eq_iff_iff, decide_eq_true_iff, Instr.verifies_iff, hi, Except.ok.injEq, Except.ok.injEq]
    rw [hv]
    refine ⟨State.finish_commandResult_failed rfl, fun h => ?_⟩
    obtain ⟨hverify, out, d, e, a, hengine, hcmp, hdone⟩ :=
      State.finish_commandResult_mismatch (engineOf_ok i.isXor s) h
    refine ⟨out, d, e, a, hdone, hcmp, ?_⟩
    rcases Instr.verifies_iff.1 hverify with rfl | rfl
    · exact .inl ⟨eq_encode_of_decode hi, xorEngine_eq_ok hengine⟩
    · exact .inr ⟨eq_encode_of_decode hi, cbcEngine_eq_ok hengine⟩
  · have hv : decide (decode s.lastCmd = .ok .xorV ∨ decode s.lastCmd = .ok .cbcdecV) = false := by
      rw [decide_eq_false_iff_not]
      rintro (h | h)
      · exact hother ⟨_, h, by decide⟩
      · exact hother ⟨_, h, by decide⟩
    rw [hv]
    exact ⟨fun _ _ => s.finish_failed false .invalidCommand, fun h => by cases h⟩

/-- Settles O55: the latched word, the capacity check, the engine's checks and the comparison, in this order. -/
theorem errorPriority : Obligations.ErrorPriority := by
  intro s hb
  refine ⟨_, perform_engineComplete_of_busy hb, ?_⟩
  rintro _ _ rfl rfl
  rw [State.finish_err]
  split
  next hother =>
    rw [State.latchedResult_of_other_word hother]
    rfl
  next hcommand =>
    obtain ⟨i, hi, hclear⟩ := not_other_word_iff.1 hcommand
    rw [State.latchedResult_of_decode hi hclear, State.commandResult_err_eq]
    simp only [isXor_iff_of_decode hi, verifies_iff_of_decode hi, State.overCapacity_iff,
      State.cipherLengthsOk_eq_false_iff, Bool.decide_eq_true]

end Sys2Proof.Machine
end

section
/-! SUPPORT. The STATUS word while no result stands, a reset core, and the host's accesses in phase BUSY
(70_reset_and_hazards.md R280, R281, R285). -/

namespace Sys2Proof.Machine

/-! ## The STATUS word -/

theorem State.readReg_status (s : State) : s.readReg 1 = s.status := rfl

/-- With no verdict and no error STATUS is the phase alone (10_state.md R24). -/
theorem State.status_eq_phase {s : State} (hvres : s.vres = .none) (herr : s.err = .none) : s.status = s.phase.code := by
  simp [State.status, hvres, herr, Vres.code, Err.code]

/-! ## A reset core -/

/-- The state a core starts with is one that Reset does not change. -/
theorem State.discard_resetWith (cap : Word) : (State.resetWith cap).discard = State.resetWith cap := rfl

theorem State.resetWith_isReset (cap : Word) : (State.resetWith cap).IsReset :=
  State.discard_resetWith cap ▸ State.discard_isReset _

theorem State.IsReset.status_eq_zero {s : State} (h : s.IsReset) : s.status = 0 := by
  rw [State.status_eq_phase h.vres h.err, h.phase]; rfl

theorem State.IsReset.not_busy {s : State} (h : s.IsReset) : s.phase ≠ .busy := by simp [h.phase]

theorem State.IsReset.doneLine_eq_false {s : State} (h : s.IsReset) : s.doneLine = false := by
  simp [State.doneLine, h.phase]

/-- The engine has nothing to complete outside phase BUSY (60_exceptions.md R260). -/
theorem perform_engineComplete_of_not_busy {s : State} (h : s.phase ≠ .busy) :
    perform .engineComplete s = .next s := by
  rw [show perform .engineComplete s = engineComplete s from rfl, engineComplete_eq, State.completeWith_not_busy h]

/-! ## The host's accesses in phase BUSY -/

theorem perform_hostWriteReg_of_busy {s : State} (h : s.phase = .busy) (n w : Word) :
    perform (.hostWriteReg n w) s = .next s := if_pos h

theorem State.hostWriteBuf_of_busy {s : State} (h : s.phase = .busy) (sp : Space) (i : Nat) (b : Byte) :
    s.hostWriteBuf sp i b = s := if_pos h

theorem State.Inv.readBuf_out_eq_zero {s : State} (hs : s.Inv) {i : Nat}
    (h : s.outLen.toNat ≤ i ∨ s.phase ≠ .done) : s.readBuf .out i = 0 := by
  rw [State.readBuf, State.buf_out, hs.read_outBuf_eq_zero h, ite_self]

end Sys2Proof.Machine
end

section
/-! The statements on Reset and on the input lock, settled. -/

namespace Sys2Proof.Machine

/-- Settles O19: Reset and `CLEAR` outside phase BUSY both leave the state of `discard`, which is a reset one. -/
theorem resetZeroesEverything : Obligations.ResetZeroesEverything := by
  refine ⟨State.resetWith_isReset, State.resetWith_isReset _, fun s => ?_⟩
  have hreset := s.discard_isReset
  exact ⟨s.discard, rfl, hreset, hreset.status_eq_zero, hreset.doneLine_eq_false, s.discard_cap, exec_clear_of_not_busy⟩

/-- Settles O20: Reset leaves phase IDLE, in which the engine has nothing to complete. -/
theorem resetAbandonsTheCommand : Obligations.ResetAbandonsTheCommand := by
  intro s _
  have hreset := s.discard_isReset
  exact ⟨s.discard, rfl, hreset, perform_engineComplete_of_not_busy hreset.not_busy⟩

/-- Settles O22: writes are dropped and reads answered, and the results the host reads are clear by the invariant. -/
theorem busyLocksInputs : Obligations.BusyLocksInputs := by
  intro s hb
  refine ⟨perform_hostWriteReg_of_busy hb, fun sp i b => congrArg _ (s.hostWriteBuf_of_busy hb sp i b),
    fun _ => rfl, fun _ _ => rfl, fun hs => ?_⟩
  obtain ⟨herr, hvres, hlen, -, hat, hinfo⟩ := hs.busy_clear hb
  refine ⟨?_, hlen, hat, ?_, fun i => hs.readBuf_out_eq_zero (.inr (by simp [hb]))⟩
  · rw [State.readReg_status, State.status_eq_phase hvres herr, hb]; rfl
  · rw [State.readReg_mismatchInfo, hinfo, MismatchInfo.word_none]

end Sys2Proof.Machine
end

section
/-! SUPPORT. The invariant step by step (10_state.md R55): the reset state, the steps that keep the results, START
and completion. -/

namespace Sys2Proof.Machine

/-! ## The next step -/

/-- With nothing scheduled the engine acts (10_state.md R53). -/
theorem step_of_empty_schedule {s : State} (h : s.schedule = []) : step s = perform .engineComplete s := by
  simp only [step, advance, h, perform]

/-! ## The reset state -/

theorem State.resetWith_inv {cap : Word} (h : 16 ≤ cap) : (State.resetWith cap).Inv where
  cap_min           := h
  buf_wf            := fun sp => by cases sp <;> exact Memory.wf_nil
  buf_fits          := fun sp => by cases sp <;> exact List.forall_mem_nil _
  status_legal      := List.mem_cons_self
  idle_clear        := fun _ => ⟨⟨rfl, rfl, rfl, rfl, rfl, rfl⟩, rfl⟩
  busy_clear        := fun h => by cases h
  outLen_le         := BitVec.le_def.2 (Nat.zero_le _)
  out_ends          := List.forall_mem_nil _
  out_ok            := fun h => absurd rfl h
  mismatch_zero     := fun _ => ⟨rfl, rfl⟩
  mismatch_valid    := fun h => by cases h
  lastCmd_not_clear := show (0 : Word) ≠ encode .clear by decide

/-! ## Steps that leave the results alone -/

/-- With the results, `CAP` and `LASTCMD` kept, only the buffers can break the invariant. -/
theorem State.Inv.of_keepsResults {s t : State} (hs : s.Inv) (hr : s.KeepsResults t) (hcap : t.cap = s.cap)
    (hcmd : t.lastCmd = s.lastCmd) (hwf : ∀ sp, (t.buf sp).wf) (hfits : ∀ sp, (t.buf sp).endsBy (s.size sp)) :
    t.Inv := by
  obtain ⟨hphase, herr, hvres, hlen, hat, hinfo, hbytes⟩ := hr
  have hout : t.outBuf = s.outBuf := Memory.ext_of_wf (hwf .out) (hs.buf_wf .out) hbytes
  have hclear : t.resultsClear ↔ s.resultsClear := by
    simp only [State.resultsClear, herr, hvres, hlen, hout, hat, hinfo]
  exact {
    cap_min           := hcap ▸ hs.cap_min
    buf_wf            := hwf
    buf_fits          := fun sp => State.size_congr hcap sp ▸ hfits sp
    status_legal      := by rw [hphase, hvres, herr]; exact hs.status_legal
    idle_clear        := by rw [hphase, hclear, hcmd]; exact hs.idle_clear
    busy_clear        := by rw [hphase, hclear]; exact hs.busy_clear
    outLen_le         := by rw [hlen, hcap]; exact hs.outLen_le
    out_ends          := by rw [hout, hlen]; exact hs.out_ends
    out_ok            := by rw [hlen, herr]; exact hs.out_ok
    mismatch_zero     := by rw [hvres, hat, hinfo]; exact hs.mismatch_zero
    mismatch_valid    := by rw [hvres, hinfo]; exact hs.mismatch_valid
    lastCmd_not_clear := hcmd ▸ hs.lastCmd_not_clear }

/-- With the buffers kept too, nothing can. -/
theorem State.Inv.of_same_buffers {s t : State} (hs : s.Inv) (hr : s.KeepsResults t) (hcap : t.cap = s.cap)
    (hcmd : t.lastCmd = s.lastCmd) (hbuf : ∀ sp, t.buf sp = s.buf sp) : t.Inv :=
  hs.of_keepsResults hr hcap hcmd (fun sp => hbuf sp ▸ hs.buf_wf sp) fun sp => hbuf sp ▸ hs.buf_fits sp

section
variable {s : State} (hs : s.Inv)
include hs

theorem State.Inv.withSchedule (l : List AgentStep) : (s.withSchedule l).Inv :=
  hs.of_same_buffers (by constructor <;> simp) rfl rfl (s.withSchedule_buf l)

theorem State.Inv.answer (r : Reply) : (s.answer r).Inv :=
  hs.of_same_buffers (s.answer_keepsResults r) rfl rfl (s.answer_buf r)

theorem State.Inv.storeReg (r : RegName) (w : Word) : (s.storeReg r w).Inv :=
  hs.of_same_buffers (s.storeReg_keepsResults r w) (s.storeReg_cap r w) (s.storeReg_lastCmd r w) (s.storeReg_buf r w)

/-- A host's write of one byte stands below the size of its buffer, in canonical form (20_memory.md R62). -/
theorem State.Inv.hostWriteBuf (sp : Space) (i : Nat) (b : Byte) : (s.hostWriteBuf sp i b).Inv := by
  rcases s.hostWriteBuf_cases sp i b with ⟨-, h⟩ | ⟨-, hsp, hi, h⟩ <;> rw [h]
  · exact hs
  · refine hs.of_keepsResults (s.setBuf_keepsResults hsp _) (s.setBuf_cap _ _) (s.setBuf_lastCmd _ _)
      (fun sp' => ?_) fun sp' => ?_ <;> rw [State.setBuf_buf] <;> split
    · exact Memory.write_wf (hs.buf_wf sp) i b
    · exact hs.buf_wf sp'
    next h => exact h ▸ Memory.write_endsBy (hs.buf_fits sp) hi b
    · exact hs.buf_fits sp'

/-! ## Steps that write the results -/

/-- The discarded state is the reset state of the same `CAP` (70_reset_and_hazards.md R280). -/
theorem State.Inv.discard : s.discard.Inv :=
  (State.resetWith_inv hs.cap_min).of_same_buffers (by constructor <;> simp [State.resetWith]) rfl rfl fun sp => by
    cases sp <;> rfl

theorem State.Inv.start {w : Word} (hw : w ≠ 0x00000003) : (s.start w).Inv where
  cap_min           := hs.cap_min
  buf_wf            := fun sp => by
    rw [State.start_buf]; split
    · exact Memory.wf_nil
    · exact hs.buf_wf sp
  buf_fits          := fun sp => by
    rw [State.start_buf]; split
    · exact List.forall_mem_nil _
    · exact hs.buf_fits sp
  status_legal      := by simp [legalStatus]
  idle_clear        := fun h => by cases h
  busy_clear        := fun _ => s.start_resultsClear w
  outLen_le         := BitVec.le_def.2 (Nat.zero_le _)
  out_ends          := List.forall_mem_nil _
  out_ok            := fun h => absurd rfl h
  mismatch_zero     := fun _ => ⟨rfl, rfl⟩
  mismatch_valid    := fun h => by cases h
  lastCmd_not_clear := hw

/-- A completion writes an output that fits `CAP` and one row of R206. -/
theorem State.Inv.finish {r : Result} (hr : r.Fine s) : (s.finish r).Inv := by
  have hlen : (BitVec.ofNat 32 r.out.length : Word).toNat = r.out.length :=
    Nat.mod_eq_of_lt (hr.length_cap.trans_lt s.cap.isLt)
  exact {
    cap_min           := hs.cap_min
    buf_wf            := fun sp => by
      rw [State.finish_buf]; split
      · exact Memory.ofBytes_wf r.out
      · exact hs.buf_wf sp
    buf_fits          := fun sp => by
      rw [State.finish_buf]; split
      next h => exact h ▸ fun c hc => (Memory.ofBytes_endsBy r.out c hc).trans_le hr.length_cap
      · exact hs.buf_fits sp
    status_legal      := hr.legal
    idle_clear        := fun h => by cases h
    busy_clear        := fun h => by cases h
    outLen_le         := by rw [BitVec.le_def, State.finish_outLen, hlen]; exact hr.length_cap
    out_ends          := by rw [State.finish_outLen, hlen]; exact Memory.ofBytes_endsBy r.out
    out_ok            := fun h => hr.out_ok fun hnil => h (by rw [State.finish_outLen, hnil]; rfl)
    mismatch_zero     := hr.mismatch_zero
    mismatch_valid    := hr.mismatch_valid
    lastCmd_not_clear := hs.lastCmd_not_clear }

/-! ## One step -/

theorem State.Inv.hostWriteReg {t : State} {n w : Word} (h : hostWriteReg s n w = .next t) : t.Inv := by
  rcases hostWriteReg_cases h with ⟨-, rfl⟩ | ⟨-, -, -, rfl⟩ | ⟨-, -, hw, rfl⟩ | ⟨-, -, r, -, -, rfl⟩ | ⟨-, -, -, rfl⟩
  · exact hs
  · exact hs.discard
  · exact hs.start hw
  · exact hs.storeReg r w
  · exact hs

/-- Every step of every agent keeps the invariant. -/
theorem State.Inv.perform {t : State} {a : AgentStep} (h : perform a s = .next t) : t.Inv := by
  rcases perform_cases h with ⟨n, w, -, hw⟩ | ⟨n, -, rfl⟩ | ⟨sp, i, b, -, rfl⟩ | ⟨sp, i, -, rfl⟩ | ⟨-, -, rfl⟩ |
    ⟨-, -, rfl⟩ | ⟨-, rfl⟩
  · exact hs.hostWriteReg hw
  · exact hs.answer _
  · exact hs.hostWriteBuf sp i b
  · exact hs.answer _
  · exact hs.finish s.latchedResult_fine
  · exact hs
  · exact hs.discard

end

end Sys2Proof.Machine
end

section
/-! The statements on the invariant, settled. -/

namespace Sys2Proof.Machine

/-- Settles O58: the next step is one of an agent's, and each of these keeps the invariant. -/
theorem stepKeepsInvariant : Obligations.StepKeepsInvariant := by
  intro s t hs h
  cases hl : s.schedule with
  | nil => exact hs.perform ((step_of_empty_schedule hl).symm.trans h)
  | cons a l => exact (hs.withSchedule l).perform ((step_of_schedule hl).symm.trans h)

/-- Settles O57: after reset every buffer is empty and every result clear. -/
theorem resetMeetsInvariant : Obligations.ResetMeetsInvariant :=
  ⟨fun _ => State.resetWith_inv, State.resetWith_inv (by decide)⟩

end Sys2Proof.Machine
end

section
/-! SUPPORT. The reason a word is rejected for, by the word's number (30_encoding.md R91, R93). -/

namespace Sys2Proof

/-- The decoder rejects a word for exactly the reason the check on its fields finds. -/
theorem decode_eq_error_iff {w : Word} {why : Reserved} :
    decode w = .error why ↔ (Fields.ofWord w).check = some why := by
  simp only [decode]
  split
  next r hr => simp [hr]
  next hnone => simp only [hnone, reduceCtorEq, iff_false]; split_ifs <;> simp

/-! ## The check, reason by reason -/

theorem Fields.check_eq_reservedBits_iff {f : Fields} : f.check = some .reservedBits ↔ f.rsv ≠ 0 := by
  unfold Fields.check
  split_ifs <;> simp_all

theorem Fields.check_eq_unknownOp_iff {f : Fields} :
    f.check = some .unknownOp ↔ f.rsv = 0 ∧ f.op ≠ 1 ∧ f.op ≠ 2 ∧ f.op ≠ 3 := by
  unfold Fields.check
  split_ifs <;> simp_all

theorem Fields.check_eq_clearWithVerify_iff {f : Fields} :
    f.check = some .clearWithVerify ↔ f = ⟨3, true, 0⟩ := by
  obtain ⟨op, v, rsv⟩ := f
  unfold Fields.check
  split_ifs <;> simp_all

/-! ## The fields as numbers -/

theorem Fields.rsv_ofWord_eq_zero_iff {w : Word} : (Fields.ofWord w).rsv = 0 ↔ w.toNat < 512 := by
  rw [BitVec.toNat_inj.symm, show (Fields.ofWord w).rsv = w.extractLsb' 9 23 from rfl, BitVec.extractLsb'_toNat,
    Nat.shiftRight_eq_div_pow]
  have := w.isLt
  change w.toNat / 512 % 8388608 = 0 ↔ w.toNat < 512
  omega

theorem Fields.op_ofWord_eq_iff {w : Word} {n : Nat} (hn : n < 256) :
    (Fields.ofWord w).op = BitVec.ofNat 8 n ↔ w.toNat % 256 = n := by
  rw [BitVec.toNat_inj.symm, show (Fields.ofWord w).op = w.extractLsb' 0 8 from rfl, BitVec.extractLsb'_toNat,
    Nat.shiftRight_zero, BitVec.toNat_ofNat, Nat.mod_eq_of_lt hn]

/-- No two words have the same fields. -/
theorem Fields.ofWord_eq_iff {w : Word} {f : Fields} (hf : Fields.ofWord f.word = f) :
    Fields.ofWord w = f ↔ w = f.word :=
  ⟨fun h => by rw [← h, Fields.word_ofWord], fun h => h ▸ hf⟩

end Sys2Proof
end

section
/-! The statements on reserved words and on the sample words, settled. -/

namespace Sys2Proof

/-- Settles O2: the check on the fields, each field read off the word's number. -/
theorem reservedWordsAreRejectedByReason : Obligations.ReservedWordsAreRejectedByReason := by
  intro w
  simp only [decode_eq_error_iff]
  refine ⟨?_, ?_, ?_⟩
  · rw [Fields.check_eq_reservedBits_iff, ne_eq, Fields.rsv_ofWord_eq_zero_iff, Nat.not_lt]
  · rw [Fields.check_eq_unknownOp_iff, Fields.rsv_ofWord_eq_zero_iff]
    have hop {n : Nat} (hn : n < 256) := not_congr (Fields.op_ofWord_eq_iff (w := w) hn)
    exact and_congr_right' (and_congr (hop (by decide)) (and_congr (hop (by decide)) (hop (by decide))))
  · rw [Fields.check_eq_clearWithVerify_iff, Fields.ofWord_eq_iff (by decide)]
    rfl

/-- Settles O3: five words are the encoder's, and the check on the fields of the other four computes. -/
theorem sampleWordsDecode : Obligations.SampleWordsDecode :=
  ⟨decode_encode .xor, decode_encode .xorV, decode_encode .cbcdec, decode_encode .cbcdecV, decode_encode .clear,
    rfl, rfl, rfl, rfl⟩

end Sys2Proof
end

section
/-! SUPPORT. What a placed command leaves scheduled and latched, and that everything answers (44_control_ops.md R221,
R222; 93_implementation_defined.md section 2). -/

namespace Sys2Proof.Machine

/-! ## A placed command -/

/-- The word of a command placed in full is placed as it is. -/
theorem State.withFetchWord_word (s : State) (w : Word) : s.withFetchWord 32 w.toNat = s.withCommand w := by
  rw [State.withFetchWord, Nat.mod_eq_of_lt w.isLt, BitVec.ofNat_toNat, BitVec.setWidth_eq]

/-- `CLEAR` is placed as the host's next write. -/
theorem State.schedule_withCommand_clear (s : State) :
    (s.withCommand (encode .clear)).schedule = .hostWriteReg 0 0x00000003 :: s.schedule := rfl

/-- Every other command is placed latched, the engine's step next. -/
theorem State.withCommand_of_ne_clear (s : State) {i : Instr} (hi : i ≠ .clear) :
    s.withCommand (encode i) = (s.start (encode i)).withSchedule (.engineComplete :: s.schedule) := by
  cases i
  case clear => exact absurd rfl hi
  all_goals rfl

/-! ## Everything answers -/

theorem State.completeWith_answers (s : State) (run : State → Result) : ∃ t, s.completeWith run = .next t := by
  unfold State.completeWith
  split
  · exact ⟨_, rfl⟩
  · exact ⟨_, rfl⟩

theorem exec_answers (i : Instr) (s : State) : ∃ t, exec i s = .next t := by
  cases i with
  | clear =>
    by_cases hb : s.phase = .busy
    · exact ⟨_, exec_clear_of_busy hb⟩
    · exact ⟨_, exec_clear_of_not_busy hb⟩
  | xor => exact s.completeWith_answers fun s => s.commandResult true false xorEngine
  | xorV => exact s.completeWith_answers fun s => s.commandResult true true xorEngine
  | cbcdec => exact s.completeWith_answers fun s => s.commandResult false false cbcEngine
  | cbcdecV => exact s.completeWith_answers fun s => s.commandResult false true cbcEngine

theorem hostWriteReg_answers (s : State) (n w : Word) : ∃ t, hostWriteReg s n w = .next t := by
  unfold hostWriteReg
  split
  · exact ⟨s, rfl⟩
  · split
    · split
      · exact exec_answers .clear s
      · exact ⟨_, rfl⟩
    · exact ⟨_, rfl⟩
    · exact ⟨_, rfl⟩

theorem perform_answers (a : AgentStep) (s : State) : ∃ t, perform a s = .next t := by
  cases a with
  | hostWriteReg n w => exact hostWriteReg_answers s n w
  | engineComplete =>
    rw [show perform .engineComplete s = engineComplete s from rfl, engineComplete_eq]
    exact s.completeWith_answers _
  | _ => exact ⟨_, rfl⟩

theorem step_answers (s : State) : ∃ t, step s = .next t := by
  cases hl : s.schedule with
  | nil => rw [step_of_empty_schedule hl]; exact perform_answers _ s
  | cons a l => rw [step_of_schedule hl]; exact perform_answers a _

/-! ## The end of a command -/

/-- However the steps are scheduled, the engine's is reached or a `Reset` comes first (10_state.md R53). -/
theorem core_run_leaves_busy {l : List AgentStep} {s : State} (hb : s.phase = .busy) (hl : s.schedule = l) :
    ∃ k, k ≤ l.length + 1 ∧ ∃ t : State, core.run k s = .next t ∧ t.phase ≠ .busy ∧ (.reset ∉ l → t.phase = .done) := by
  induction l generalizing s with
  | nil =>
    have hstep := (step_of_empty_schedule hl).trans (perform_engineComplete_of_busy hb)
    exact ⟨1, le_rfl, _, core_run_succ hstep 0, by simp, fun _ => rfl⟩
  | cons a l ih =>
    have hstep := step_of_schedule hl
    by_cases hreset : a = .reset
    · subst hreset
      exact ⟨1, by simp, _, core_run_succ hstep 0, by simp, fun h => absurd List.mem_cons_self h⟩
    by_cases hengine : a = .engineComplete
    · subst hengine
      exact ⟨1, by simp, _, core_run_succ (hstep.trans (perform_engineComplete_of_busy hb)) 0, by simp, fun _ => rfl⟩
    · obtain ⟨r, hr⟩ := perform_host_of_busy (s := s.withSchedule l) hb ⟨hreset, hengine⟩
      obtain ⟨k, hk, t, ht, hleft, hdone⟩ := ih (s := { s.withSchedule l with replies := r }) hb rfl
      exact ⟨k + 1, Nat.succ_le_succ hk, t, (core_run_succ (hstep.trans hr) k).trans ht, hleft,
        fun h => hdone (List.not_mem_of_not_mem_cons h)⟩

end Sys2Proof.Machine
end

section
/-! The statements on the step, settled. -/

namespace Sys2Proof.Machine

/-- Settles O4: a step is the first scheduled agent step, or the engine's; the engine's runs the latched command, and a
write of the word of `CLEAR` runs that. -/
theorem stepRunsTheDecodedCommand : Obligations.StepRunsTheDecodedCommand := by
  refine ⟨fun _ _ _ => step_of_schedule, fun s l i hl hi hclear => ?_, fun s i hl hi hclear => ?_,
    fun s l w hl _ hw => ?_⟩
  · exact (step_of_schedule hl).trans (engineComplete_of_decode hi hclear)
  · exact (step_of_empty_schedule hl).trans (engineComplete_of_decode hi hclear)
  · obtain rfl := decode_clear_iff.1 hw
    exact (step_of_schedule hl).trans (perform_hostWriteReg_clear _)

/-- Settles O5: `CLEAR` is placed as the next write, every other command latched with the engine's step next. -/
theorem placedCommandRunsNext : Obligations.PlacedCommandRunsNext := by
  intro s i
  rw [State.withFetchWord_word]
  by_cases hclear : i = .clear
  · subst hclear
    rw [step_of_schedule s.schedule_withCommand_clear, perform_hostWriteReg_clear]
  · rw [s.withCommand_of_ne_clear hclear, step_of_schedule (State.withSchedule_schedule _ _)]
    exact engineComplete_of_decode (decode_encode i) hclear

/-- Settles O6: each kind of step answers. -/
theorem everyStepAnswersNext : Obligations.EveryStepAnswersNext :=
  fun s => ⟨step_answers s, fun a => perform_answers a s, fun i => exec_answers i s⟩

/-- Settles O7, by induction on the steps scheduled. -/
theorem busyEnds : Obligations.BusyEnds :=
  fun _ hb => core_run_leaves_busy hb rfl

/-- Settles O26: START and `CLEAR` overwrite every field that a completion writes. -/
theorem noErrorIsSticky : Obligations.NoErrorIsSticky := by
  intro s r w hdone
  have hs : s.phase ≠ .busy := by simp [hdone]
  have hfinish : (s.finish r).phase ≠ .busy := by simp
  by_cases hw : w = 0x00000003
  · subst hw
    rw [perform_hostWriteReg_clear, perform_hostWriteReg_clear, exec_clear_of_not_busy hfinish,
      exec_clear_of_not_busy hs]
    rfl
  · rw [perform_hostWriteReg_start hfinish hw, perform_hostWriteReg_start hs hw]
    rfl

end Sys2Proof.Machine
end

section
/-! SUPPORT. The words a host reads of STATUS and MISMATCH_INFO (10_state.md R24, R33; 43_verify_compare.md R206). -/

namespace Sys2Proof.Machine

/-! ## MISMATCH_INFO -/

/-- Two bytes and two bits, packed as MISMATCH_INFO packs them (10_state.md R33), are read back. -/
theorem extract_packed_bytes (e a : Byte) (ev av : Bool) :
    let w : Word := e.setWidth 32 ||| (a.setWidth 32 <<< 8) ||| ((BitVec.ofBool ev).setWidth 32 <<< 16) |||
      ((BitVec.ofBool av).setWidth 32 <<< 17)
    w.extractLsb' 0 8 = e ∧ w.extractLsb' 8 8 = a ∧ w.getLsbD 16 = ev ∧ w.getLsbD 17 = av ∧
      w.extractLsb' 18 14 = 0 := by
  refine ⟨?_, ?_, by simp, by simp, ?_⟩
  all_goals
    refine BitVec.eq_of_getLsbD_eq fun i hi => ?_
    simp only [BitVec.getLsbD_extractLsb', BitVec.getLsbD_or, BitVec.getLsbD_shiftLeft, BitVec.getLsbD_setWidth,
      BitVec.getLsbD_ofBool]
    grind

theorem optByteValid_eq_ofBool (b : Option Byte) : optByteValid b = (BitVec.ofBool b.isSome).setWidth 32 := by
  cases b <;> rfl

/-- The fields of the MISMATCH_INFO word (10_state.md R33). -/
theorem MismatchInfo.word_fields (m : MismatchInfo) :
    m.word.extractLsb' 0 8 = m.expected.getD 0 ∧ m.word.extractLsb' 8 8 = m.actual.getD 0 ∧
      m.word.getLsbD 16 = m.expected.isSome ∧ m.word.getLsbD 17 = m.actual.isSome ∧
      m.word.extractLsb' 18 14 = 0 := by
  have h := extract_packed_bytes (m.expected.getD 0) (m.actual.getD 0) m.expected.isSome m.actual.isSome
  rwa [← optByteValid_eq_ofBool, ← optByteValid_eq_ofBool] at h

/-! ## STATUS -/

/-- The STATUS word of a row of R206 (10_state.md R24). -/
def statusWord (row : Phase × Vres × Err) : Word :=
  row.1.code ||| (row.2.1.code <<< 2) ||| (row.2.2.code <<< 4)

theorem State.status_eq_statusWord (s : State) : s.status = statusWord (s.phase, s.vres, s.err) := rfl

/-- The words of the fourteen rows (43_verify_compare.md R206). -/
theorem map_statusWord_legalStatus :
    legalStatus.map statusWord =
      [0x00000000, 0x00000001, 0x00000002, 0x00000012, 0x00000022, 0x00000032, 0x00000052, 0x00000062,
        0x00000006, 0x0000004A, 0x0000001E, 0x0000002E, 0x0000003E, 0x0000006E] := by
  decide

/-- Outside phase DONE the invariant leaves no verdict and no error, so STATUS is the phase alone. -/
theorem State.Inv.status_of_not_done {s : State} (hs : s.Inv) (h : s.phase ≠ .done) : s.status = s.phase.code := by
  obtain ⟨herr, hvres, -⟩ := hs.resultsClear_of_not_done h
  exact State.status_eq_phase hvres herr

end Sys2Proof.Machine
end

section
/-! The statements on the words of STATUS and MISMATCH_INFO, settled. -/

namespace Sys2Proof.Machine

/-- Settles O11: the word packs two bytes and two bits, and register 8 stores nothing. -/
theorem mismatchInfoFields : Obligations.MismatchInfoFields := by
  intro s
  obtain ⟨hexpected, hactual, hexpValid, hactValid, hzero⟩ := s.mismatchInfo.word_fields
  exact ⟨hexpected, hactual, hexpValid, hactValid, hzero,
    perform_hostWriteReg_ignored (by simp [RegName.ofNumber]) s⟩

/-- Settles O56: the phase, the verdict and the error are one of the fourteen rows, whose words are the table's. -/
theorem legalStatusWords : Obligations.LegalStatusWords := by
  intro s hs
  rw [State.readReg_status]
  refine ⟨?_, fun hp => ?_, fun hp => ?_⟩
  · rw [← map_statusWord_legalStatus, State.status_eq_statusWord]
    exact List.mem_map_of_mem hs.status_legal
  · rw [hs.status_of_not_done (by simp [hp]), hp]; rfl
  · rw [hs.status_of_not_done (by simp [hp]), hp]; rfl

end Sys2Proof.Machine
end

section
/-! SUPPORT. The host's `LOAD` (30_encoding.md R96): what its writes leave in the buffer, and its run. -/

namespace Sys2Proof.Machine

/-! ## A sequence written byte by byte -/

/-- The writes of a sequence at indices `a`, `a + 1`, … of a buffer, lowest index first (`core_run_writeBytes`). -/
def Memory.writeFrom (m : Memory) (a : Nat) : List Byte → Memory
  | [] => m
  | b :: bs => Memory.writeFrom (m.write a b) (a + 1) bs

/-- The bytes of the sequence stand at their indices, and every other byte is as it was. -/
theorem Memory.read_writeFrom {m : Memory} (h : m.wf) (a : Nat) (bs : List Byte) (j : Nat) :
    (m.writeFrom a bs).read j = if a ≤ j ∧ j < a + bs.length then bs.getD (j - a) 0 else m.read j := by
  induction bs generalizing m a with
  | nil => rw [if_neg (by simp)]; rfl
  | cons b bs ih =>
    rw [Memory.writeFrom, ih (Memory.write_wf h a b), Memory.read_write h, List.length_cons]
    rcases Nat.lt_trichotomy j a with hj | rfl | hj
    · rw [if_neg (by omega), if_neg (by omega), if_neg (by omega)]
    · rw [if_neg (by omega), if_pos rfl, if_pos (by omega), Nat.sub_self, List.getD_cons_zero]
    · obtain ⟨k, rfl⟩ := Nat.exists_eq_add_of_lt hj
      simp only [show a + k + 1 - (a + 1) = k by omega, show a + k + 1 - a = k + 1 by omega, List.getD_cons_succ,
        show a + k + 1 ≠ a by omega, if_false]
      exact if_congr (by omega) rfl rfl

/-! ## The run -/

theorem State.withSchedule_self {s : State} {l : List AgentStep} (h : s.schedule = l) : s.withSchedule l = s := by
  subst h; rfl

theorem State.setBuf_buf_self (s : State) (sp : Space) : s.setBuf sp (s.buf sp) = s := by cases sp <;> rfl

/-- The last of two writes of a buffer, and of the schedule, is the one that stands. -/
theorem State.setBuf_withSchedule_twice (s : State) (sp : Space) (m m' : Memory) (l l' : List AgentStep) :
    (((s.setBuf sp m).withSchedule l).setBuf sp m').withSchedule l' = (s.setBuf sp m').withSchedule l' := by
  cases sp <;> rfl

/-- A scheduled write of a byte inside an input buffer, outside phase BUSY (20_memory.md R62). -/
theorem step_hostWriteBuf_inside {s : State} {sp : Space} {i : Nat} {b : Byte} {l : List AgentStep}
    (hs : s.schedule = .hostWriteBuf sp i b :: l) (hb : s.phase ≠ .busy) (hsp : sp ≠ .out) (hi : i < s.size sp) :
    step s = .next ((s.setBuf sp ((s.buf sp).write i b)).withSchedule l) := by
  rw [step_of_schedule hs]
  rcases (s.withSchedule l).hostWriteBuf_cases sp i b with ⟨hbusy | hout | hsize, -⟩ | ⟨-, -, -, h⟩
  · exact absurd hbusy hb
  · exact absurd hout hsp
  · exact absurd hi (Nat.not_lt.2 hsize)
  · exact congrArg _ (h.trans (by cases sp <;> rfl))

/-- Running the scheduled writes of a sequence that fits puts it into the buffer, and nothing else changes. -/
theorem core_run_writeBytes {s : State} {sp : Space} {bs : List Byte} {a : Nat} {l : List AgentStep}
    (hb : s.phase ≠ .busy) (hsp : sp ≠ .out) (hsize : a + bs.length ≤ s.size sp)
    (hs : s.schedule = Script.writeBytes sp a bs ++ l) (k : Nat) :
    core.run (bs.length + k) s = core.run k ((s.setBuf sp ((s.buf sp).writeFrom a bs)).withSchedule l) := by
  induction bs generalizing s a with
  | nil =>
    have hl : s.schedule = l := hs
    rw [Memory.writeFrom, s.setBuf_buf_self, State.withSchedule_self hl, List.length_nil, Nat.zero_add]
  | cons b bs ih =>
    rw [List.length_cons] at hsize
    have hstep := step_hostWriteBuf_inside hs hb hsp (by omega)
    rw [List.length_cons, Nat.add_right_comm, core_run_succ hstep, ih (a := a + 1) (by simpa using hb) ?fits rfl,
      State.setBuf_withSchedule_twice, State.withSchedule_buf, State.setBuf_buf, if_pos rfl, Memory.writeFrom]
    case fits => rw [State.size_congr (s := s) (by simp)]; omega

/-- The length register of an input space reads back the word stored in it (20_memory.md R65). -/
theorem State.loadReg_storeReg_lenReg (s : State) {sp : Space} (hsp : sp ≠ .out) (w : Word) :
    (s.storeReg sp.lenReg w).loadReg sp.lenReg = w := by
  cases sp
  case out => exact absurd rfl hsp
  all_goals rfl

/-- `LOAD` of a sequence that fits: the bytes in the buffer, the length in its register. -/
theorem core_run_load {s : State} {sp : Space} {bs : List Byte} {l : List AgentStep} (hb : s.phase ≠ .busy)
    (hsp : sp ≠ .out) (hsize : bs.length ≤ s.size sp) (hs : s.schedule = Script.load sp bs ++ l) :
    core.run (bs.length + 1) s =
      .next (((s.setBuf sp ((s.buf sp).writeFrom 0 bs)).withSchedule l).storeReg sp.lenReg
        (BitVec.ofNat 32 bs.length)) := by
  rw [core_run_writeBytes hb hsp (by omega) (hs.trans (List.append_assoc _ _ _))]
  exact core_run_succ ((step_of_schedule rfl).trans
    (perform_hostWriteReg_store (by simpa using hb) (by cases sp <;> decide) _)) 0

/-- A buffer's size is a number that a register can hold (00_scope.md R8). -/
theorem State.size_lt (s : State) (sp : Space) : s.size sp < 2 ^ 32 := by
  cases sp
  case iv => exact show 16 < 2 ^ 32 by decide
  all_goals exact s.cap.isLt

theorem State.KeepsResults.trans {s t u : State} (h : s.KeepsResults t) (h' : t.KeepsResults u) : s.KeepsResults u where
  phase        := h'.phase.trans h.phase
  err          := h'.err.trans h.err
  vres         := h'.vres.trans h.vres
  outLen       := h'.outLen.trans h.outLen
  mismatchAt   := h'.mismatchAt.trans h.mismatchAt
  mismatchInfo := h'.mismatchInfo.trans h.mismatchInfo
  bytes        := fun a => (h'.bytes a).trans (h.bytes a)

theorem State.withSchedule_keepsResults (s : State) (l : List AgentStep) : s.KeepsResults (s.withSchedule l) := by
  constructor <;> simp

end Sys2Proof.Machine
end

section
/-! The statement on `LOAD`, settled. -/

namespace Sys2Proof.Machine

/-- Settles O16, by the run of the writes and of the one register write after them. -/
theorem loadPlacesTheSequence : Obligations.LoadPlacesTheSequence := by
  intro s sp bytes l hs hb hsp hsize hschedule
  refine ⟨_, core_run_load hb hsp hsize hschedule, by simp, ?_, fun sp' j => ?_, ?_⟩
  · rw [State.readReg_number, State.loadReg_storeReg_lenReg _ hsp]
    exact Nat.mod_eq_of_lt (hsize.trans_lt (s.size_lt sp))
  · rw [State.storeReg_buf, State.withSchedule_buf, State.setBuf_buf]
    by_cases hsp' : sp' = sp
    · simp [hsp', Memory.read_writeFrom (hs.buf_wf sp)]
    · simp [hsp']
  · exact ((s.setBuf_keepsResults hsp _).trans (State.withSchedule_keepsResults _ l)).trans
      (State.storeReg_keepsResults _ _ _)

end Sys2Proof.Machine
end

section
/-! The statement on the lanes, settled. -/

namespace Sys2Proof.Machine

/-- Settles O30: the groups write exactly the bytes of the transform, each at its index. -/
theorem lanesCannotBeObserved : Obligations.LanesCannotBeObserved :=
  fun _ _ _ k hlanes _ horder => xorByLanes_eq_ofBytes k hlanes horder

end Sys2Proof.Machine
end

section
/-! SUPPORT. The rounds of the equivalent inverse cipher (42_aes128_inverse_cipher.md R172). -/

namespace Sys2Proof.Machine

/-- InvMixColumns is additive, so it may be taken before the addition of the round key, if that key went through it. -/
theorem equivalentRound_eq_decryptRound (st k : Block) : equivalentRound st k = decryptRound st k := by
  rw [equivalentRound, decryptRound, addRoundKey, addRoundKey, invMixColumns_xor, invSubBytes_comm_invShiftRows]

end Sys2Proof.Machine
end

section
/-! The statement on the equivalent inverse cipher, settled. -/

namespace Sys2Proof.Machine

/-- Settles O47, round by round. -/
theorem equivalentInverseCipher : Obligations.EquivalentInverseCipher := by
  intro c key
  simp only [equivalentDecrypt, blockDecrypt, decryptWith, equivalentRound_eq_decryptRound]
  rw [← invSubBytes_comm_invShiftRows]

end Sys2Proof.Machine
end

section
/-! SUPPORT. What a CBC command without an engine error puts out, and that its output determines the ciphertext
(41_aes_cbc_decrypt.md R136, R140). -/

namespace Sys2Proof.Machine

/-! ## The output of a command without an engine error -/

/-- A command that ends without an error, or with `Mismatch`, puts out what its engine answered (60_exceptions.md
R246). -/
theorem State.commandResult_out_of_engine {s : State} {x v : Bool} {engine : State → Except Err (List Byte)}
    (hok : EngineOk s (engine s))
    (h : (s.commandResult x v engine).err = .none ∨ (s.commandResult x v engine).err = .mismatch) :
    s.overCapacity x v = false ∧ engine s = .ok (s.commandResult x v engine).out := by
  obtain ⟨r, hr, hcause, herr, -⟩ := s.commandResult_cases x v hok
  rw [hr] at h ⊢
  cases r with
  | error k =>
    obtain ⟨hnone, hmismatch, -⟩ := herr k rfl
    exact absurd h (by simp [Result.failed, hnone, hmismatch])
  | ok out =>
    rcases hcause with ⟨-, hc⟩ | ⟨hfits, hc⟩
    · cases hc
    · exact ⟨hfits, by rw [judge_out, hc]⟩

/-- An answer of the CBC unit is its input without the padding (41_aes_cbc_decrypt.md R130, R136). -/
theorem cbcEngine_ok_cases {s : State} {out : List Byte} (h : cbcEngine s = .ok out) :
    s.cipherLengthsOk = true ∧ unpad (cbcRaw s.input s.key s.ivBytes) = some out ∧
      ∃ p, 1 ≤ p ∧ p ≤ 16 ∧ out.length + p = s.inLen.toNat := by
  rcases cbcEngine_cases s with ⟨-, hc⟩ | ⟨-, -, hc⟩ | ⟨out', hl, hu, hc, hp⟩ <;> rw [hc] at h <;> cases h
  exact ⟨hl, hu, hp⟩

/-- The output of a CBC command without an engine error is 1 to 16 bytes shorter than its input. -/
theorem State.finish_cbc_outLen {s : State} {v : Bool}
    (h : (s.commandResult false v cbcEngine).err = .none ∨ (s.commandResult false v cbcEngine).err = .mismatch) :
    ∃ p, 1 ≤ p ∧ p ≤ 16 ∧ (s.finish (s.commandResult false v cbcEngine)).outLen.toNat + p = s.inLen.toNat := by
  obtain ⟨-, hout⟩ := State.commandResult_out_of_engine (cbcEngine_ok s) h
  obtain ⟨-, -, p, h1, h16, hlen⟩ := cbcEngine_ok_cases hout
  refine ⟨p, h1, h16, ?_⟩
  rw [State.finish_outLen, BitVec.toNat_ofNat, Nat.mod_eq_of_lt (length_lt_of_cbcEngine_ok hout), hlen]

/-! ## The output determines the ciphertext -/

/-- What is unpadded is the padding of what is left (41_aes_cbc_decrypt.md R135, R139). -/
theorem pad_of_unpad {raw out : List Byte} (hmod : raw.length % 16 = 0) (hne : raw.length ≠ 0)
    (h : unpad raw = some out) : pad out = raw := by
  simp only [unpad] at h
  split at h
  next hp =>
    obtain ⟨h1, h16 : _ ≤ 16, htail⟩ := hp
    obtain rfl := Option.some.inj h
    generalize (raw.getLastD 0).toNat = p at h1 h16 htail ⊢
    have hdrop : raw.drop (raw.length - p) = List.replicate p (BitVec.ofNat 8 p) := by
      refine List.eq_replicate_iff.2 ⟨by rw [List.length_drop]; omega, fun b hb => ?_⟩
      rw [← of_decide_eq_true (List.all_eq_true.1 htail b hb), BitVec.ofNat_toNat, BitVec.setWidth_eq]
    have hpad : 16 - (raw.take (raw.length - p)).length % 16 = p := by rw [List.length_take]; omega
    rw [pad, Config.blockBytes, hpad, ← hdrop, List.take_append_drop]
  next => cases h

/-- Where the block cipher is inverted on the other side, so is the chain. -/
theorem cbcEncryptChain_cbcChain {rk : List Block} (h : ∀ c, encryptWith rk (decryptWith rk c) = c) (prev : Block)
    (cs : List Block) : cbcEncryptChain rk prev (cbcChain rk prev cs) = cs := by
  induction cs generalizing prev with
  | nil => rfl
  | cons c cs ih => rw [cbcChain, cbcEncryptChain, Block.xor_xor_cancel, h, ih]

/-- The reference encryptor undoes the chained decryption on whole blocks (42_aes128_inverse_cipher.md R174, R176). -/
theorem cbcEncryptRaw_cbcRaw {ct : List Byte} (h : ct.length % 16 = 0) (key iv : List Byte) :
    cbcEncryptRaw (cbcRaw ct key iv) key iv = ct := by
  rw [cbcEncryptRaw, cbcRaw, blocksOf_bytesOf,
    cbcEncryptChain_cbcChain (blockEncrypt_blockDecrypt · (blockOf key)), bytesOf_blocksOf h]

/-- An accepted ciphertext is the encryption of its output, so no other ciphertext gives that output. -/
theorem eq_cbcEncrypt_of_unpad {ct key iv out : List Byte} (hmod : ct.length % 16 = 0) (hne : ct.length ≠ 0)
    (h : unpad (cbcRaw ct key iv) = some out) : ct = cbcEncrypt out key iv := by
  have hlen := length_cbcRaw ct key iv
  rw [cbcEncrypt, pad_of_unpad (by omega) (by omega) h, cbcEncryptRaw_cbcRaw hmod]

/-! ## One byte of the input changed -/

/-- The input after a write of one of its bytes. -/
theorem Memory.bytes_write {m : Memory} (h : m.wf) (i : Nat) (b : Byte) (n : Nat) :
    (m.write i b).bytes n = (m.bytes n).set i b := by
  refine List.ext_getElem (by simp) fun j hj _ => ?_
  rw [Memory.getElem_bytes, Memory.read_write h, List.getElem_set, Memory.getElem_bytes]
  exact if_congr eq_comm rfl rfl

/-- After a change of one byte the padding is invalid or the output another one (41_aes_cbc_decrypt.md R140). -/
theorem unpad_cbcRaw_set_ne {ct key iv out : List Byte} {i : Nat} {b : Byte} (hmod : ct.length % 16 = 0)
    (hi : i < ct.length) (hb : b ≠ ct.getD i 0) (h : unpad (cbcRaw ct key iv) = some out) :
    unpad (cbcRaw (ct.set i b) key iv) ≠ some out := by
  intro h'
  have hsame : ct.set i b = ct :=
    (eq_cbcEncrypt_of_unpad (by simpa using hmod) (by rw [List.length_set]; omega) h').trans
      (eq_cbcEncrypt_of_unpad hmod (by omega) h).symm
  exact hb (by rw [← hsame]; simp [List.getD_eq_getElem?_getD, hi])

/-! ## A command whose plaintext is not the expected one -/

section
variable {s : State} {out : List Byte} (hlengths : s.cipherLengthsOk = true)
  (hother : unpad (cbcRaw s.input s.key s.ivBytes) ≠ some out)
include hlengths hother

/-- The unit rejects the padding, or answers another output. -/
theorem cbcEngine_of_unpad_ne :
    cbcEngine s = .error .invalidPadding ∨ ∃ out', cbcEngine s = .ok out' ∧ out' ≠ out := by
  cases hu : unpad (cbcRaw s.input s.key s.ivBytes) with
  | none => exact .inl (cbcEngine_of_unpad_none hlengths hu)
  | some out' => exact .inr ⟨out', cbcEngine_of_unpad_some hlengths hu, fun h => hother (h ▸ hu)⟩

/-- `CBCDEC` then fails or leaves that other output. -/
theorem State.finish_cbcdec_of_unpad_ne (hfits : s.overCapacity false false = false) :
    (s.finish (s.commandResult false false cbcEngine)).err = .invalidPadding ∨
      ((s.finish (s.commandResult false false cbcEngine)).err = .none ∧
        (s.finish (s.commandResult false false cbcEngine)).output ≠ out) := by
  rw [State.commandResult_of_fits hfits]
  rcases cbcEngine_of_unpad_ne hlengths hother with he | ⟨out', he, hne⟩ <;> rw [he]
  · exact .inl rfl
  · refine .inr ⟨rfl, ?_⟩
    rwa [judge_plain, s.finish_output _ (length_lt_of_cbcEngine_ok he)]

/-- `CBCDEC.V` against the expected output then fails or finds a difference. -/
theorem State.finish_cbcdecV_of_unpad_ne (hfits : s.overCapacity false true = false) (href : s.reference = out) :
    ((s.finish (s.commandResult false true cbcEngine)).vres = .error ∧
        (s.finish (s.commandResult false true cbcEngine)).err = .invalidPadding) ∨
      ((s.finish (s.commandResult false true cbcEngine)).vres = .fail ∧
        (s.finish (s.commandResult false true cbcEngine)).err = .mismatch) := by
  rw [State.commandResult_of_fits hfits, href]
  rcases cbcEngine_of_unpad_ne hlengths hother with he | ⟨out', he, hne⟩ <;> rw [he]
  · exact .inl ⟨rfl, rfl⟩
  · rw [judge_verify]
    cases hv : compareBytes out' out with
    | pass => exact absurd (compareBytesFrom_eq_pass_iff.1 hv) hne
    | fail d e a => exact .inr ⟨rfl, rfl⟩

end

end Sys2Proof.Machine
end

section
/-! The statements on the length of the output and on tampering, settled. -/

namespace Sys2Proof.Machine

/-- Settles O36: both commands put out what the unit answered, which is the input without its padding. -/
theorem outputIsShorterByThePadding : Obligations.OutputIsShorterByThePadding := by
  rintro s t hb (h | h) herr
  · obtain rfl := Host.Outcome.next.inj ((exec_cbcdec_of_busy hb).symm.trans h)
    exact State.finish_cbc_outLen herr
  · obtain rfl := Host.Outcome.next.inj ((exec_cbcdecV_of_busy hb).symm.trans h)
    exact State.finish_cbc_outLen herr

/-- Settles O38: the changed input passes the same length checks, and its output, if it has one, is another, so that the
comparison with the old one fails. -/
theorem tamperingNeverPasses : Obligations.TamperingNeverPasses := by
  rintro s s' t i b hs hb ht herr hi hne rfl
  obtain rfl := Host.Outcome.next.inj ((exec_cbcdec_of_busy hb).symm.trans ht)
  obtain ⟨hfits, hengine⟩ := State.commandResult_out_of_engine (cbcEngine_ok s) (.inl herr)
  have hlt := length_lt_of_cbcEngine_ok hengine
  obtain ⟨hlengths, hunpad, p, -, -, hlen⟩ := cbcEngine_ok_cases hengine
  obtain ⟨-, -, hmod, -⟩ := s.cipherLengthsOk_iff.1 hlengths
  rw [s.finish_output _ hlt]
  have hinput : State.input { s with inBuf := s.inBuf.write i b } = s.input.set i b :=
    Memory.bytes_write (hs.buf_wf .inp) i b _
  have hother := unpad_cbcRaw_set_ne (by simpa using hmod) (by simpa using hi)
    (by rwa [State.input, Memory.getD_bytes _ hi]) hunpad
  rw [← hinput] at hother
  refine ⟨⟨_, exec_cbcdec_of_busy hb, State.finish_cbcdec_of_unpad_ne hlengths hother hfits⟩,
    fun href hrefBytes => ⟨_, exec_cbcdecV_of_busy hb, State.finish_cbcdecV_of_unpad_ne hlengths hother ?_ hrefBytes⟩⟩
  have hin := ((s.overCapacity_eq_false_iff false false).1 hfits).1
  have hrefCap : s.refLen ≤ s.cap := by
    rw [BitVec.le_def] at hin ⊢
    rw [href, State.finish_outLen, BitVec.toNat_ofNat, Nat.mod_eq_of_lt hlt]
    omega
  exact (State.overCapacity_eq_without_reference hrefCap false true).trans hfits

end Sys2Proof.Machine
end

section
/-! SUPPORT. The chained plaintext byte by byte, and what one byte of the ciphertext or of the IV changes of it
(41_aes_cbc_decrypt.md R134, R141). -/

namespace Sys2Proof.Machine

/-- Byte `q` of the chained plaintext: its block decrypted, and the byte 16 before it of the ciphertext, or that
of the IV. -/
theorem getD_cbcRaw {n : Nat} {ct key iv : List Byte} (hct : ct.length = 16 * n) (hkey : key.length = 16)
    (hiv : iv.length = 16) {q : Nat} (hq : q < 16 * n) :
    (cbcRaw ct key iv).getD q 0 =
      (blockDecrypt (blockOf (ct.drop (16 * (q / 16)))) (blockOf key)).bytes.getD (q % 16) 0 ^^^
        (if q < 16 then iv.getD q 0 else ct.getD (q - 16) 0) := by
  obtain ⟨-, hbytes⟩ := cbcRawChainsBlocks n ct key iv hct (by omega) hkey hiv
  have h := hbytes (q / 16) (q % 16) (by omega) (Nat.mod_lt _ (by decide))
  rw [Nat.div_add_mod] at h
  rw [h]
  congr 1
  by_cases hfirst : q < 16
  · rw [if_pos (by omega), if_pos hfirst, Nat.mod_eq_of_lt hfirst]
  · rw [if_neg (by omega), if_neg hfirst, show 16 * (q / 16 - 1) + q % 16 = q - 16 by omega]

/-- A block depends on its 16 bytes alone. -/
theorem blockOf_congr {l l' : List Byte} (h : ∀ j, j < 16 → l.getD j 0 = l'.getD j 0) : blockOf l = blockOf l' := by
  calc blockOf l = blockOf ((List.range 16).map (l.getD · 0)) := rfl
    _ = blockOf ((List.range 16).map (l'.getD · 0)) := by
      rw [List.map_congr_left fun j hj => h j (List.mem_range.1 hj)]
    _ = blockOf l' := rfl

theorem getD_set (l : List Byte) (p : Nat) (b : Byte) (i : Nat) (hp : p < l.length) :
    (l.set p b).getD i 0 = if i = p then b else l.getD i 0 := by
  rw [List.getD_eq_getElem?_getD, List.getElem?_set, List.getD_eq_getElem?_getD]
  by_cases hi : p = i
  · rw [if_pos hi, if_pos hi.symm, if_pos (hi ▸ hp), Option.getD_some]
  · rw [if_neg hi, if_neg (Ne.symm hi)]

/-- A changed byte leaves every block but its own. -/
theorem blockOf_drop_set (l : List Byte) {p k : Nat} (b : Byte) (hp : p < l.length) (hk : k ≠ p / 16) :
    blockOf ((l.set p b).drop (16 * k)) = blockOf (l.drop (16 * k)) := by
  refine blockOf_congr fun j hj => ?_
  have h := getD_set l p b (16 * k + j) hp
  rw [if_neg (by omega)] at h
  simpa [List.getD_eq_getElem?_getD] using h

/-- A byte replaced by another is a byte changed by their difference. -/
theorem xor_replace (x a b : Byte) : x ^^^ b = x ^^^ a ^^^ (a ^^^ b) := by
  calc x ^^^ b = x ^^^ (a ^^^ a) ^^^ b := by simp
    _ = x ^^^ a ^^^ (a ^^^ b) := by ac_rfl

end Sys2Proof.Machine
end

section
/-! The statement on error propagation, settled. -/

namespace Sys2Proof.Machine

/-- Settles O39: outside the block of the changed byte the decrypted block is the same, so only the byte chained into it
can differ. -/
theorem errorPropagation : Obligations.ErrorPropagation := by
  intro n ct key iv b hct hkey hiv
  refine ⟨fun p q hp hq hblock => ?_, fun j q hj hq => ?_⟩
  · rw [getD_cbcRaw (by simpa using hct) hkey hiv hq, getD_cbcRaw hct hkey hiv hq,
      blockOf_drop_set ct b (by omega) hblock, getD_set ct p b _ (by omega)]
    by_cases hfirst : q < 16
    · rw [if_pos hfirst, if_pos hfirst, if_neg (show q ≠ p + 16 by omega)]
      exact BitVec.xor_zero.symm
    · rw [if_neg hfirst, if_neg hfirst]
      by_cases hchained : q = p + 16
      · rw [if_pos (show q - 16 = p by omega), if_pos hchained, show q - 16 = p by omega]
        exact xor_replace _ _ _
      · rw [if_neg (show q - 16 ≠ p by omega), if_neg hchained]
        exact BitVec.xor_zero.symm
  · rw [getD_cbcRaw hct hkey (by simpa using hiv) hq, getD_cbcRaw hct hkey hiv hq, getD_set iv j b q (by omega)]
    by_cases hchanged : q = j
    · subst hchanged
      rw [if_pos hj, if_pos hj, if_pos rfl, if_pos rfl]
      exact xor_replace _ _ _
    · rw [if_neg hchanged, if_neg hchanged]
      exact BitVec.xor_zero.symm

end Sys2Proof.Machine
end
